-- ==== Sys2Proof/Word.lean ====
section
/-! DEFINITION. The words of the CPE: bytes of DMEM, 16-bit data words, 32-bit registers, 48-bit matrix rows (R8). -/

namespace Sys2Proof

/-- One byte of DMEM or of a frame (R50, R81). -/
abbrev Byte := BitVec 8

/-- A 16-bit data word of the CRC Engine (R8, R14 "word"). -/
abbrev Word16 := BitVec 16

/-- A 32-bit register, operation word, accumulator or table entry (R8, R21). -/
abbrev Word32 := BitVec 32

/-- A 48-bit row of the matrix: bits 31:0 select accumulator bits, bits 47:32 data bits (R101). -/
abbrev Row48 := BitVec 48

end Sys2Proof
end

