-- ==== Sys2Proof/Syntax.lean ====
section
/-! DEFINITION. The operations of the CPE: one constructor per row of spec/opcode_table.json (R72, R73). -/

namespace Sys2Proof

/-- An operation with the operands its word carries (R71, R74). Every other operand is an implicit register (R75). -/
inductive Instr where
  /-- CRC_START, R113. -/
  | crcStart
  /-- CRC_WORD_S, R114: `imm` is the data word. -/
  | crcWordS (imm : Word16)
  /-- CRC_WORD_T, R115: `imm` is the data word. -/
  | crcWordT (imm : Word16)
  /-- CRC_BUF_S, R116. -/
  | crcBufS
  /-- CRC_BUF_T, R117. -/
  | crcBufT
  /-- TBL_INIT, R118. -/
  | tblInit
  /-- TBL_READ, R119: `imm` is the table index. -/
  | tblRead (imm : Word16)
  /-- PKT_BUILD, R147: `d` is the D flag, true where DECL gives the declared length. -/
  | pktBuild (d : Bool)
  /-- PKT_VALIDATE, R148. -/
  | pktValidate
  deriving DecidableEq, Repr

end Sys2Proof
end

