-- ==== Sys2Proof/Decode.lean ====
section
/-! DEFINITION. The operation word (R70 to R78): the opcode table, the decoder that is total on all words, and the
encoder. -/

namespace Sys2Proof

/-- What decoding a word gives (R77): an operation, or ILLEGAL_OP where no row matches. -/
inductive Decoded where
  | instr (i : Instr)
  | illegalOp
  deriving DecidableEq, Repr

/-- OPC, bits 7:0 (R71). -/
def fieldOpc (op : Word32) : BitVec 8 := op.extractLsb' 0 8

/-- D, bit 8 (R71). -/
def fieldD (op : Word32) : Bool := op.getLsbD 8

/-- RSV, bits 15:9 (R71). -/
def fieldRsv (op : Word32) : BitVec 7 := op.extractLsb' 9 7

/-- IMM, bits 31:16, unsigned, not extended or scaled (R71, R74). -/
def fieldImm (op : Word32) : Word16 := op.extractLsb' 16 16

/-- One row of the opcode table of R73, with the operation its words stand for. -/
structure OpRow where
  mask : Word32
  pattern : Word32
  operation : Word32 → Instr

/-- A word matches a row under the row's mask (R73, R77). -/
def OpRow.hit (r : OpRow) (op : Word32) : Bool := op &&& r.mask == r.pattern

/-- The table of R73, row for row. -/
def opcodeTable : List OpRow :=
  [ ⟨0xFFFFFFFF#32, 0x00000001#32, fun _ => .crcStart⟩,
    ⟨0x0000FFFF#32, 0x00000002#32, fun op => .crcWordS (fieldImm op)⟩,
    ⟨0x0000FFFF#32, 0x00000003#32, fun op => .crcWordT (fieldImm op)⟩,
    ⟨0xFFFFFFFF#32, 0x00000004#32, fun _ => .crcBufS⟩,
    ⟨0xFFFFFFFF#32, 0x00000005#32, fun _ => .crcBufT⟩,
    ⟨0xFFFFFFFF#32, 0x00000006#32, fun _ => .tblInit⟩,
    ⟨0x0000FFFF#32, 0x00000007#32, fun op => .tblRead (fieldImm op)⟩,
    ⟨0xFFFFFEFF#32, 0x00000010#32, fun op => .pktBuild (fieldD op)⟩,
    ⟨0xFFFFFFFF#32, 0x00000011#32, fun _ => .pktValidate⟩ ]

/-- The operation of the first row of a table that a word matches, or ILLEGAL_OP (R77). -/
def decodeRows : List OpRow → Word32 → Decoded
  | [], _ => .illegalOp
  | r :: rows, op => if r.hit op then .instr (r.operation op) else decodeRows rows op

/-- The decoder (R77). The rows of the table are disjoint (R73), so the first match is the only one. -/
def decode (op : Word32) : Decoded := decodeRows opcodeTable op

/-- The instruction of a decoding, if there is one. -/
def Decoded.instr? : Decoded → Option Instr
  | .instr i => some i
  | .illegalOp => none

/-- The word of an operation, its fields put where R71 lays them out: IMM from bit 16, RSV 0 from bit 9, D at bit 8, OPC
from bit 0. -/
def opWord (imm : Word16) (d : Bool) (opc : BitVec 8) : Word32 :=
  BitVec.ofNat 32 (imm.toNat * 2 ^ 16 + d.toNat * 2 ^ 8 + opc.toNat)

/-- The word a host writes to OP for an operation (R72, R74, R79). -/
def encode : Instr → Word32
  | .crcStart => opWord 0 false 0x01
  | .crcWordS imm => opWord imm false 0x02
  | .crcWordT imm => opWord imm false 0x03
  | .crcBufS => opWord 0 false 0x04
  | .crcBufT => opWord 0 false 0x05
  | .tblInit => opWord 0 false 0x06
  | .tblRead imm => opWord imm false 0x07
  | .pktBuild d => opWord 0 d 0x10
  | .pktValidate => opWord 0 false 0x11

/-- The operation of an `nbits`-bit word numbered as spec/opcode_table.json numbers it, bits above `nbits` zero. Every
operation is one 32-bit word (R78), so a wider value with a bit above bit 31 is no operation. -/
def decodeTableWord (nbits w : Nat) : Option Instr :=
  let v := w % 2 ^ nbits
  if v < 2 ^ 32 then (decode (BitVec.ofNat 32 v)).instr? else none

end Sys2Proof
end

