-- ==== Sys2Proof/Machine/Bits.lean ====
section
/-! DEFINITION. The notation of R10 and R12: parity, little-endian assembly of bytes, the byte sum. -/

namespace Sys2Proof.Machine

/-- `parity(v)`: the XOR of all bits of v (R10). -/
def parity {n : Nat} (v : BitVec n) : Bool :=
  (List.range n).foldl (fun p i => p ^^ v.getLsbD i) false

/-- `LE16(b0, b1) = b0 | (b1 << 8)` (R12). -/
def le16 (b0 b1 : Byte) : Word16 := b0.setWidth 16 ||| (b1.setWidth 16 <<< 8)

/-- `LE32(b0, b1, b2, b3) = b0 | b1 << 8 | b2 << 16 | b3 << 24` (R12). -/
def le32 (b0 b1 b2 b3 : Byte) : Word32 :=
  b0.setWidth 32 ||| (b1.setWidth 32 <<< 8) ||| (b2.setWidth 32 <<< 16) ||| (b3.setWidth 32 <<< 24)

/-- `bytesLE(v, n)`: the n-byte little-endian list of v (R12), low byte first (R52). -/
def bytesLE (v : Nat) : Nat → List Byte
  | 0 => []
  | n + 1 => BitVec.ofNat 8 v :: bytesLE (v / 256) n

/-- The value of a little-endian byte list of any length (R52): the byte at the lowest address is least significant. -/
def valueLE : List Byte → Nat
  | [] => 0
  | b :: l => b.toNat + 256 * valueLE l

/-- The sum of the bytes, exact. -/
def byteSum (l : List Byte) : Nat := (l.map BitVec.toNat).sum

/-- `sum32(l) = (Σ l[i]) mod 2^32` (R12). -/
def sum32 (l : List Byte) : Word32 := BitVec.ofNat 32 (byteSum l)

/-- `LE32(l[k], l[k+1], l[k+2], l[k+3])`, for `k + 4 ≤ len(l)`. -/
def le32At (l : List Byte) (k : Nat) : Word32 :=
  le32 (l.getD k 0) (l.getD (k + 1) 0) (l.getD (k + 2) 0) (l.getD (k + 3) 0)

end Sys2Proof.Machine
end

