-- ==== Sys2Proof/Config.lean ====
section
/-! DEFINITION. The implementation parameters of R8 and the values the spec leaves open.

An `opaque` constant here has no body: nothing can be proved of it but what holds of every value. -/

namespace Sys2Proof

/-- How the state contribution S is computed (R110, `P_STATE_FORM`). No result depends on it. -/
inductive StateForm where
  | direct
  | byteTables
  deriving DecidableEq, Repr, Inhabited

/-- The configuration of one CPE (R35): fixed for the life of a model instance. -/
structure Config where
  /-- `P_CRC_MATRIX`: row i gives output bit i of F (R100, R101). -/
  matrix : Vector Row48 32
  /-- `P_CRC_INIT` (R108). -/
  crcInit : Word32
  /-- `P_N_PORTS` (R20). -/
  nPorts : Nat
  /-- `P_DMEM_SIZE` in bytes (R50). -/
  dmemSize : Nat
  /-- `P_STATE_FORM` (R110). -/
  stateForm : StateForm
  deriving DecidableEq, Repr

/-- The bounds R8 puts on the parameters: `P_N_PORTS ≥ 1` and `65547 ≤ P_DMEM_SIZE ≤ 2^32`. -/
abbrev Config.wf (c : Config) : Prop :=
  1 ≤ c.nPorts ∧ 65547 ≤ c.dmemSize ∧ c.dmemSize ≤ 2 ^ 32

/-- `P_CRC_MATRIX`, OPEN (D14, I1). -/
opaque Config.pCrcMatrix : Vector Row48 32

/-- `P_CRC_INIT`, OPEN (D13, I2). -/
opaque Config.pCrcInit : Word32

/-- `P_N_PORTS - 1`, OPEN (D2, U11): written so that `P_N_PORTS ≥ 1` by construction. -/
opaque Config.pPortsBeyondFirst : Nat

/-- `P_DMEM_SIZE - 65547`, OPEN (D3, U11): written so that `65547 ≤ P_DMEM_SIZE ≤ 2^32` by construction. -/
opaque Config.pDmemBeyondLeast : Fin 4294901750

/-- The configuration of the device: every OPEN parameter an opaque constant, `P_STATE_FORM = DIRECT` (D17). -/
def Config.device : Config where
  matrix := Config.pCrcMatrix
  crcInit := Config.pCrcInit
  nPorts := Config.pPortsBeyondFirst + 1
  dmemSize := 65547 + Config.pDmemBeyondLeast.val
  stateForm := .direct

/-- The free value of R67 (D30, U2): the byte that DMEM address `addr` holds after the reset numbered `epoch`
until something writes it. -/
opaque Config.dmemDraw (epoch addr : Nat) : Byte

/-- The free value of R33 (U1): entry `index` of the data table after the reset numbered `epoch`, until it is built. -/
opaque Config.dtabDraw (epoch index : Nat) : Word32

/-- The free value of R34 and R110 (C1, I6): entry `index` of byte-keyed state table number `table` (0 or 1), which an
implementation in the BYTE_TABLES form derives from its matrix in a way the spec does not define. -/
opaque Config.byteTableEntry (matrix : Vector Row48 32) (table index : Nat) : Word32

/-- The Command enum of R86. The CPE uses none of its codes. -/
inductive Command where
  | baudrate | exitIspMode | bootUpdateEn | checkId | sectorErase | blockErase | program | verify
  deriving DecidableEq, Repr

/-- A number for each command, to pick its byte by. The numbers are not the codes. -/
def Command.index : Command → Byte
  | .baudrate => 0
  | .exitIspMode => 1
  | .bootUpdateEn => 2
  | .checkId => 3
  | .sectorErase => 4
  | .blockErase => 5
  | .program => 6
  | .verify => 7

/-- The free choice behind `P_CMD_*` (I4): any order of the 256 bytes. Every choice of eight distinct bytes is the first
eight of some order, so distinctness (R86) is all this fixes. -/
opaque Config.commandBytes : Equiv.Perm Byte

/-- `P_CMD_*`, OPEN (R86, I4): the byte software puts in CMD for a command. The eight are distinct by construction. -/
def Config.commandCode (c : Command) : Byte := Config.commandBytes c.index

/-- The Response enum of R87. The CPE decodes no response. -/
inductive Response where
  | ack | timeout | dataLengthErr | startCodeErr | unrecognizedCmd | checksumFail | illegalAddress
  | codeChecksumFail | programLengthErr | hardwareIdFail | flashIdFail
  deriving DecidableEq, Repr

/-- A number for each response, to pick its byte by. The numbers are not the codes. -/
def Response.index : Response → Byte
  | .ack => 0
  | .timeout => 1
  | .dataLengthErr => 2
  | .startCodeErr => 3
  | .unrecognizedCmd => 4
  | .checksumFail => 5
  | .illegalAddress => 6
  | .codeChecksumFail => 7
  | .programLengthErr => 8
  | .hardwareIdFail => 9
  | .flashIdFail => 10

/-- The free choice behind `P_RSP_*` (I5): any order of the 256 bytes, as for the commands. -/
opaque Config.responseBytes : Equiv.Perm Byte

/-- `P_RSP_*`, OPEN (R87, I5): the byte the device returns for a response. The eleven are distinct by construction. -/
def Config.responseCode (r : Response) : Byte := Config.responseBytes r.index

/-- What R86 and R87 say of the codes: eight distinct command bytes and eleven distinct response bytes. The codes above
have it whatever the free choice (`Config.codesDistinct`). -/
def Config.CodesDistinct : Prop :=
  (∀ a b : Command, Config.commandCode a = Config.commandCode b → a = b) ∧
    (∀ a b : Response, Config.responseCode a = Config.responseCode b → a = b)

end Sys2Proof
end

