-- ==== Sys2Proof/Machine/Request.lean ====
section
/-! DEFINITION. What a host sends the CPE and what it gets back (R220), and whose turn it is (R60, R211). -/

namespace Sys2Proof.Machine

/-- One host access (R220). `off` is a byte offset in the register window (R20), `addr` a DMEM address (R50), `width`
the access width in bytes. A DMEM write of fewer than 4 bytes writes the low bytes of `value`. -/
inductive Request where
  | regWrite (off width : Nat) (value : Word32)
  | regRead (off width : Nat)
  | dmemWrite (addr width : Nat) (value : Word32)
  | dmemRead (addr width : Nat)
  deriving DecidableEq, Repr

/-- One pick of the order of events: the arbiter serves the requester of stream `k` (R60), or the block is reset
between two events (R211). -/
inductive Turn where
  | serve (k : Nat)
  | reset
  deriving DecidableEq, Repr

/-- A value returned to the requester of stream `stream` (R220). -/
structure Reply where
  stream : Nat
  value : Word32
  deriving DecidableEq, Repr

end Sys2Proof.Machine
end

