-- ==== Sys2Proof/Machine/State.lean ====
section
/-! DEFINITION. The state of the CPE as plain data (R21, R32, R38), how a step can stop, and reset (R37, R210). -/

namespace Sys2Proof.Machine

/-- Why the machine stops with a fault. The spec gives the CPE none: every operation error is a next state (R184). -/
inductive Fault where
  /-- Raised by a meaning run in a state whose `issuer` names no bank, so that "the issuing port's bank" (R11) does not
  exist. No step of a well-formed state raises it. Safe: such a state is no state of the machine. -/
  | noIssuingPort (port : Nat)
  deriving DecidableEq, Repr

/-- Why an event has no step. -/
inductive Refusal where
  /-- Raised only by an arm of `exec` whose operation has no meaning yet. Safe: the machine stops. -/
  | notModelled (mnemonic : String)
  /-- Raised by a host register access that is not 32 bits wide or not aligned to 4 bytes: "A model refuses any other
  width or alignment: it gives the access no step" (R31, R199). Safe: the machine stops. -/
  | registerAccess (off width : Nat)
  /-- Raised by a host DMEM access that is not 1, 2 or 4 bytes wide (R54, R220). Safe: the machine stops. -/
  | dmemWidth (width : Nat)
  /-- Raised by a host DMEM access that reaches a byte at or beyond `P_DMEM_SIZE` (R54, R199). Safe: the machine stops. -/
  | dmemRange (addr width : Nat)
  deriving DecidableEq, Repr

/-- The register bank of one port (R21). STATUS is its two stored bits ERR and TRUNC, TVALID being the global bit (R24). -/
structure Bank where
  op : Word32
  /-- STATUS bit 0. -/
  err : Bool
  /-- STATUS bit 1. -/
  trunc : Bool
  cause : Word32
  src : Word32
  len : Word32
  dst : Word32
  cmd : Word32
  addrLo : Word32
  addrHi : Word32
  decl : Word32
  acc : Word32
  result : Word32
  frameLen : Word32
  deriving DecidableEq, Repr

/-- A bank after reset: the reset column of R21, ACC being `P_CRC_INIT` (R37). -/
def Bank.reset (c : Config) : Bank where
  op := 0
  err := false
  trunc := false
  cause := 0
  src := 0
  len := 0
  dst := 0
  cmd := 0
  addrLo := 0
  addrHi := 0
  decl := 0
  acc := c.crcInit
  result := 0
  frameLen := 0

/-- The bytes of DMEM written since reset, by address, addresses strictly rising (`Memory.wf`). An unlisted address
holds no written value: what it reads as is a draw (R67). -/
abbrev Memory := List Host.Cell

/-- The canonical form: addresses strictly rising, so that equal memories are equal lists. No listed entry can equal
what an unlisted address holds, since that is no value. -/
abbrev Memory.wf (m : Memory) : Prop := m.Pairwise (fun a b => a.1 < b.1)

/-- The two 256-entry byte-keyed state tables of the BYTE_TABLES form (R34). -/
structure ByteTables where
  lo : List Word32
  hi : List Word32
  deriving DecidableEq, Repr

/-- The machine. `banks`, `tvalid`, `dtab` and `dmem` are the architectural state of R38, `stateTables` that of R34,
`cfg` the configuration of R35; the rest is the host's side of the interface and the model's own bookkeeping. -/
structure State where
  /-- The parameters of this instance (R35). No step changes them. -/
  cfg : Config
  /-- Bank p is the p-th of the list (R20). -/
  banks : List Bank
  /-- `g.TVALID` (R32). -/
  tvalid : Bool
  /-- `g.DTAB`, entry w the w-th of the list (R32). -/
  dtab : List Word32
  /-- The byte tables of R34, once built; `none` in the DIRECT form. -/
  stateTables : Option ByteTables
  /-- DMEM (R50). -/
  dmem : Memory
  /-- The model's own: the port whose operation is running (R11 "the issuing port"). -/
  issuer : Nat
  /-- The model's own: the requests of each requester not yet served, oldest first (R61). Stream k is requester k's. -/
  streams : List (List Request)
  /-- The model's own: the picks of the arbiter to come, and the resets among them (R60, R211). -/
  agenda : List Turn
  /-- The model's own: the values returned to hosts, newest first (R220). -/
  replies : List Reply
  /-- The model's own: how many resets came before, so that each reset draws its free values anew (R67). -/
  epoch : Nat
  deriving DecidableEq, Repr

/-- `g.DTAB` after the reset numbered `epoch`: 65536 free values (R33, R37). Irreducible, so that no unification ever
lists them. -/
@[irreducible] def drawnTable (epoch : Nat) : List Word32 := (List.range 65536).map (Config.dtabDraw epoch)

/-- The state after the reset numbered `epoch` of a CPE configured as `c` (R37, R210), with no request pending. -/
def State.resetWith (c : Config) (epoch : Nat) : State where
  cfg := c
  banks := List.replicate c.nPorts (Bank.reset c)
  tvalid := false
  dtab := drawnTable epoch
  stateTables := none
  dmem := []
  issuer := 0
  streams := []
  agenda := []
  replies := []
  epoch := epoch

/-- The machine right after reset (R37, R210). -/
def State.reset : State := State.resetWith Config.device 0

end Sys2Proof.Machine
end

