-- ==== Sys2Proof/Machine/Flags.lean ====
section
/-! DEFINITION. The STATUS and CAUSE words and the error codes (R24, R25, R180). -/

namespace Sys2Proof.Machine

/-- The frame field a value of PKT_BUILD does not fit (R182). -/
inductive FrameField where
  | command | address | declaredLength
  deriving DecidableEq, Repr

/-- The DMEM range of an operation that runs past `P_DMEM_SIZE` (R183). -/
inductive RangeKind where
  | read | write
  deriving DecidableEq, Repr

/-- The errors an operation can end in (R180). Codes 5 to 255 are never written, so they have no constructor. -/
inductive OpError where
  | illegalOp
  | fieldOverflow (f : FrameField)
  | memRange (r : RangeKind)
  | selfCheck
  deriving DecidableEq, Repr

/-- The code of an error, `CAUSE[7:0]` (R180). -/
def OpError.code : OpError → BitVec 8
  | .illegalOp => 1
  | .fieldOverflow _ => 2
  | .memRange _ => 3
  | .selfCheck => 4

/-- The detail of an error, `CAUSE[15:8]` (R180, R182, R183). -/
def OpError.detail : OpError → BitVec 8
  | .illegalOp => 0
  | .fieldOverflow .command => 1
  | .fieldOverflow .address => 2
  | .fieldOverflow .declaredLength => 3
  | .memRange .read => 1
  | .memRange .write => 2
  | .selfCheck => 0

/-- `zext_32({detail, code})`: the word an error writes to CAUSE (R184). -/
def OpError.causeWord (e : OpError) : Word32 := 0#16 ++ (e.detail ++ e.code)

/-- The STATUS word as a host reads it: TVALID, TRUNC and ERR in bits 2, 1 and 0, the rest 0 (R24). -/
def statusWord (err trunc tvalid : Bool) : Word32 :=
  0#29 ++ (BitVec.ofBool tvalid ++ (BitVec.ofBool trunc ++ BitVec.ofBool err))

/-- TRUNC after a host writes `v` to STATUS: bit 1 = 1 clears it, bit 1 = 0 leaves it (R24). -/
def truncAfterWrite (trunc : Bool) (v : Word32) : Bool := trunc && !v.getLsbD 1

end Sys2Proof.Machine
end

