-- ==== Sys2Proof/Machine/Ops.lean ====
section
/-! DEFINITION. The named operations over memory and registers, and the two ways an operation ends (R11, R184, R185). -/

namespace Sys2Proof.Machine

/-! ## DMEM -/

/-- The value written to address `a`, if any was since reset. -/
def Memory.find (m : Memory) (a : Nat) : Option Byte :=
  match m with
  | [] => none
  | (k, x) :: rest => if k = a then some x else Memory.find rest a

/-- Writes one byte, keeping the addresses rising. -/
def Memory.write (m : Memory) (a : Nat) (v : Byte) : Memory :=
  match m with
  | [] => [(a, v)]
  | (k, x) :: rest =>
    if a < k then (a, v) :: (k, x) :: rest
    else if a = k then (a, v) :: rest
    else (k, x) :: Memory.write rest a v

/-- Writes a byte list in address order from `a` (R11 `MemWriteBytes`). -/
def Memory.writeBytes (m : Memory) (a : Nat) : List Byte → Memory
  | [] => m
  | b :: l => Memory.writeBytes (m.write a b) (a + 1) l

/-- The byte an address reads as: the last one written (R62), or the draw of this reset (R67). -/
def State.memByte (s : State) (a : Nat) : Byte :=
  (s.dmem.find a).getD (Config.dmemDraw s.epoch a)

/-- `MemBytes(a, n)` (R11): the n bytes from address a, in address order. -/
def State.memBytes (s : State) (a n : Nat) : List Byte :=
  (List.range n).map (fun i => s.memByte (a + i))

/-- `MemRead(a, n)` (R11): the n-byte little-endian value at address a, for n in 1, 2, 4. -/
def State.memRead (s : State) (a n : Nat) : Word32 := BitVec.ofNat 32 (valueLE (s.memBytes a n))

/-- `MemWriteBytes(a, l)` (R11). -/
def State.memWriteBytes (s : State) (a : Nat) (l : List Byte) : State :=
  { s with dmem := s.dmem.writeBytes a l }

/-- `MemWrite(a, n, v)` (R11): the low n bytes of v, the least significant at address a. -/
def State.memWrite (s : State) (a n : Nat) (v : Word32) : State :=
  s.memWriteBytes a (bytesLE v.toNat n)

/-- R56: the range `[a, a+n)` runs past `P_DMEM_SIZE`, the sum taken exactly. -/
def pastDmem (c : Config) (a n : Nat) : Bool := decide (c.dmemSize < a + n)

/-! ## Register banks -/

/-- The bank of port `p`, where there is one (R20). -/
def State.bank? (s : State) (p : Nat) : Option Bank := s.banks[p]?

/-- Replaces the bank of port `p`. -/
def State.setBank (s : State) (p : Nat) (b : Bank) : State := { s with banks := s.banks.set p b }

/-- Makes `b` the issuing port's bank: all the register writes of an operation at once, at its end (R13). -/
def State.commit (s : State) (b : Bank) : State := s.setBank s.issuer b

/-- Runs `f` on the issuing port's bank as it is at the start of the step: `x[NAME]` of R11 (R13). -/
def State.withIssuer (s : State) (f : Bank → State) : Host.Outcome State Fault Refusal :=
  match s.bank? s.issuer with
  | some b => .next (f b)
  | none => .fault (.noIssuingPort s.issuer)

/-! ## How an operation ends -/

/-- The registers after an error: ERR set, CAUSE written, nothing else (R184). -/
def Bank.raise (b : Bank) (e : OpError) : Bank := { b with err := true, cause := e.causeWord }

/-- The registers after a success: ERR and CAUSE cleared (R185). -/
def Bank.ok (b : Bank) : Bank := { b with err := false, cause := 0 }

/-- `raise Error(code, detail)` (R11, R184): the CPE's one exception. `b` is the issuing port's bank as the operation
found it. It transfers no control and there is no return from it (R190, R191). -/
def State.raise (s : State) (b : Bank) (e : OpError) : State := s.commit (b.raise e)

/-- `Ok()` after the register writes held in `b` (R112, R185). -/
def State.succeed (s : State) (b : Bank) : State := s.commit b.ok

end Sys2Proof.Machine
end

