-- ==== Sys2Proof/Machine/Operands.lean ====
section
/-! DEFINITION. Operand assembly: the implicit register operands of R75 as the operations use them (R74, R140, R141). -/

namespace Sys2Proof.Machine

/-- SRC as a DMEM address (R50). -/
def Bank.srcAddr (b : Bank) : Nat := b.src.toNat

/-- LEN as a byte count. -/
def Bank.byteCount (b : Bank) : Nat := b.len.toNat

/-- DST as a DMEM address (R50). -/
def Bank.dstAddr (b : Bank) : Nat := b.dst.toNat

/-- `{ADDR_HI, ADDR_LO}`: the 64-bit address value (R26, R140). -/
def Bank.address (b : Bank) : BitVec 64 := b.addrHi ++ b.addrLo

/-- The command value fits its field iff it is at most 0xFF (R140). -/
def Bank.commandFits (b : Bank) : Bool := decide (b.cmd.toNat ≤ 0xFF)

/-- The address value fits its field iff it is at most 0xFFFFFFFF (R140). -/
def Bank.addressFits (b : Bank) : Bool := decide (b.address.toNat ≤ 0xFFFFFFFF)

/-- The command byte of a frame: `CMD[7:0]`, used where `commandFits` (R85). -/
def Bank.commandByte (b : Bank) : Byte := b.cmd.setWidth 8

/-- The declared length: DECL where the D flag is 1, else LEN (R141). -/
def Bank.declaredLength (b : Bank) (d : Bool) : Nat := if d then b.decl.toNat else b.len.toNat

end Sys2Proof.Machine
end

