-- ==== Sys2Proof/Machine/Transform.lean ====
section
/-! DEFINITION. The CRC transform (R100 to R111): F, S, T, the word split, the two forms and the table build. -/

namespace Sys2Proof.Machine

/-- The step function: `F(s, w)[i] = parity(M[i] & {w, s})` (R100, layout R101). -/
def stepF (m : Vector Row48 32) (s : Word32) (w : Word16) : Word32 :=
  BitVec.ofFnLE (fun i : Fin 32 => parity (m[i] &&& (w ++ s)))

/-- The state contribution `S(s) = F(s, 0)` (R102). Both values of `P_STATE_FORM` compute exactly this (R110). -/
def contribS (m : Vector Row48 32) (s : Word32) : Word32 := stepF m s 0

/-- The data contribution `T(w) = F(0, w)` (R102). -/
def contribT (m : Vector Row48 32) (w : Word16) : Word32 := stepF m 0 w

/-- `words(d)` (R103): little-endian 16-bit words in address order, an odd last byte zero-extended. -/
def dataWords : List Byte → List Word16
  | [] => []
  | [b] => [b.setWidth 16]
  | b0 :: b1 :: d => le16 b0 b1 :: dataWords d

/-- The bit-serial (direct) form `crcS(a, d)` (R104). No output transform follows it (R109). -/
def crcS (m : Vector Row48 32) (a : Word32) (d : List Byte) : Word32 :=
  (dataWords d).foldl (stepF m) a

/-- `g.DTAB[w]` of a table held as a list. -/
def tableEntry (table : List Word32) (w : Word16) : Word32 := table.getD w.toNat 0

/-- `Ft(s, w) = S(s) ⊕ g.DTAB[w]` (R106). -/
def stepFt (m : Vector Row48 32) (table : List Word32) (s : Word32) (w : Word16) : Word32 :=
  contribS m s ^^^ tableEntry table w

/-- The table-driven form `crcT(a, d)` (R106). -/
def crcT (m : Vector Row48 32) (table : List Word32) (a : Word32) (d : List Byte) : Word32 :=
  (dataWords d).foldl (stepFt m table) a

/-- The table `EnsureTable` writes: `T(w)` for w in 0 … 65535 (R33, R111). Irreducible, so that no unification ever lists
its 65536 entries; the kernel evaluates it all the same. -/
@[irreducible] def builtTable (m : Vector Row48 32) : List Word32 :=
  (List.range 65536).map (fun w => contribT m (BitVec.ofNat 16 w))

/-- The byte tables built with it: two of 256 entries in the BYTE_TABLES form, none in the DIRECT form (R34, R110). -/
def builtStateTables (c : Config) : Option ByteTables :=
  match c.stateForm with
  | .direct => none
  | .byteTables =>
    some { lo := (List.range 256).map (Config.byteTableEntry c.matrix 0)
           hi := (List.range 256).map (Config.byteTableEntry c.matrix 1) }

/-- `EnsureTable()` (R111): builds the tables where `g.TVALID = 0`, and changes nothing where it is 1. -/
def State.ensureTable (s : State) : State :=
  if s.tvalid then s
  else { s with tvalid := true, dtab := builtTable s.cfg.matrix, stateTables := builtStateTables s.cfg }

end Sys2Proof.Machine
end

