-- ==== Sys2Proof/Machine/Crc.lean ====
section
/-! DEFINITION. The meanings of the CRC family (R113 to R119). -/

namespace Sys2Proof.Machine

/-- CRC_START (R113). -/
def execCrcStart (s : State) : Host.Outcome State Fault Refusal :=
  s.withIssuer fun b => s.succeed { b with acc := s.cfg.crcInit, result := s.cfg.crcInit }

/-- CRC_WORD_S (R114). -/
def execCrcWordS (imm : Word16) (s : State) : Host.Outcome State Fault Refusal :=
  s.withIssuer fun b =>
    let v := stepF s.cfg.matrix b.acc imm
    s.succeed { b with acc := v, result := v }

/-- CRC_WORD_T (R115). -/
def execCrcWordT (imm : Word16) (s : State) : Host.Outcome State Fault Refusal :=
  s.withIssuer fun b =>
    let t := s.ensureTable
    let v := stepFt t.cfg.matrix t.dtab b.acc imm
    t.succeed { b with acc := v, result := v }

/-- CRC_BUF_S (R116). -/
def execCrcBufS (s : State) : Host.Outcome State Fault Refusal :=
  s.withIssuer fun b =>
    if pastDmem s.cfg b.srcAddr b.byteCount then s.raise b (.memRange .read)
    else
      let v := crcS s.cfg.matrix b.acc (s.memBytes b.srcAddr b.byteCount)
      s.succeed { b with acc := v, result := v }

/-- CRC_BUF_T (R117): the range is checked before the table is built (R111). -/
def execCrcBufT (s : State) : Host.Outcome State Fault Refusal :=
  s.withIssuer fun b =>
    if pastDmem s.cfg b.srcAddr b.byteCount then s.raise b (.memRange .read)
    else
      let d := s.memBytes b.srcAddr b.byteCount
      let t := s.ensureTable
      let v := crcT t.cfg.matrix t.dtab b.acc d
      t.succeed { b with acc := v, result := v }

/-- TBL_INIT (R118): ACC and RESULT are unchanged. -/
def execTblInit (s : State) : Host.Outcome State Fault Refusal :=
  s.withIssuer fun b => s.ensureTable.succeed b

/-- TBL_READ (R119): ACC is unchanged. -/
def execTblRead (imm : Word16) (s : State) : Host.Outcome State Fault Refusal :=
  s.withIssuer fun b =>
    let t := s.ensureTable
    t.succeed { b with result := tableEntry t.dtab imm }

end Sys2Proof.Machine
end

