-- ==== Sys2Proof/Machine/Frame.lean ====
section
/-! DEFINITION. The request frame (R81 to R85, R142 to R146). -/

namespace Sys2Proof.Machine

/-- The start code, 0xA5 always (R81, R84). -/
def startCode : Byte := 0xA5

/-- `fit(p, L)` (R142): exactly L bytes, zero-padded or truncated, and whether it truncated (R149 law 3). -/
def fitPayload (p : List Byte) (l : Nat) : List Byte × Bool :=
  if p.length < l then (p ++ List.replicate (l - p.length) 0, false)
  else if p.length > l then (p.take l, true)
  else (p, false)

/-- `prefix(c, A, L, q)` (R143): start code, command, address, data length, payload. -/
def frameHead (c : Byte) (addr : Word32) (l : Nat) (q : List Byte) : List Byte :=
  [startCode, c] ++ bytesLE addr.toNat 4 ++ bytesLE l 2 ++ q

/-- `frame(c, A, L, q)` (R143): the head and its byte sum (R144). It has the laws of R149: it is valid, of `12 + L` bytes,
and 0xA5 first. -/
def frame (c : Byte) (addr : Word32) (l : Nat) (q : List Byte) : List Byte :=
  frameHead c addr l q ++ bytesLE (sum32 (frameHead c addr l q)).toNat 4

/-- `valid(f)` (R145): at least 4 bytes, and the last four are the sum of the rest. Nothing else is checked (R84). It
sees every change of one byte of a built frame, and none of two bytes that cancel in the sum (R149). -/
def validFrame (f : List Byte) : Bool :=
  decide (4 ≤ f.length) && le32At f (f.length - 4) == sum32 (f.take (f.length - 4))

end Sys2Proof.Machine
end

