-- ==== Sys2Proof/Machine/Packet.lean ====
section
/-! DEFINITION. The meanings of the Packet family (R147, R148). -/

namespace Sys2Proof.Machine

/-- The first error PKT_BUILD meets before it reads memory, in the order of R187: the three field checks (R140, R141),
then the source range, then the destination range (R56). -/
def buildError (c : Config) (b : Bank) (d : Bool) : Option OpError :=
  if !b.commandFits then some (.fieldOverflow .command)
  else if !b.addressFits then some (.fieldOverflow .address)
  else if 0xFFFF < b.declaredLength d then some (.fieldOverflow .declaredLength)
  else if pastDmem c b.srcAddr b.byteCount then some (.memRange .read)
  else if pastDmem c b.dstAddr (12 + b.declaredLength d) then some (.memRange .write)
  else none

/-- The payload PKT_BUILD provides, fitted to the declared length, and whether it was truncated: read in full before
anything is written (R142, R147, R217). -/
def buildPayload (s : State) (b : Bank) (d : Bool) : List Byte × Bool :=
  fitPayload (s.memBytes b.srcAddr b.byteCount) (b.declaredLength d)

/-- The frame PKT_BUILD assembles (R143, R147). -/
def buildFrame (s : State) (b : Bank) (d : Bool) : List Byte :=
  frame b.commandByte b.addrLo (b.declaredLength d) (buildPayload s b d).1

/-- PKT_BUILD (R147). -/
def execPktBuild (d : Bool) (s : State) : Host.Outcome State Fault Refusal :=
  s.withIssuer fun b =>
    match buildError s.cfg b d with
    | some e => s.raise b e
    | none =>
      let l := b.declaredLength d
      let f := buildFrame s b d
      if !validFrame f then s.raise b .selfCheck
      else
        (s.memWriteBytes b.dstAddr f).succeed
          { b with
            frameLen := BitVec.ofNat 32 (12 + l)
            result := le32At f (8 + l)
            trunc := b.trunc || (buildPayload s b d).2 }

/-- PKT_VALIDATE (R148): an invalid frame is a success with RESULT 0. -/
def execPktValidate (s : State) : Host.Outcome State Fault Refusal :=
  s.withIssuer fun b =>
    if pastDmem s.cfg b.srcAddr b.byteCount then s.raise b (.memRange .read)
    else
      s.succeed { b with result := if validFrame (s.memBytes b.srcAddr b.byteCount) then 1 else 0 }

end Sys2Proof.Machine
end

