-- ==== Sys2Proof/Machine/Dispatch.lean ====
section
/-! DEFINITION. The meaning of each operation: one arm per constructor of `Instr`. -/

namespace Sys2Proof.Machine

def exec (i : Instr) (s : State) : Host.Outcome State Fault Refusal :=
  match i with
  | .crcStart => Sys2Proof.Machine.execCrcStart s
  | .crcWordS imm => Sys2Proof.Machine.execCrcWordS imm s
  | .crcWordT imm => Sys2Proof.Machine.execCrcWordT imm s
  | .crcBufS => Sys2Proof.Machine.execCrcBufS s
  | .crcBufT => Sys2Proof.Machine.execCrcBufT s
  | .tblInit => Sys2Proof.Machine.execTblInit s
  | .tblRead imm => Sys2Proof.Machine.execTblRead imm s
  | .pktBuild d => Sys2Proof.Machine.execPktBuild d s
  | .pktValidate => Sys2Proof.Machine.execPktValidate s

end Sys2Proof.Machine
end

