-- ==== Sys2Proof/WellFormed.lean ====
section
/-! DEFINITION. Which terms are well formed: operations and host accesses. -/

namespace Sys2Proof

/-- Every `Instr` is well formed: its operand types hold exactly the values the fields IMM and D hold (R71, R74), so
there is nothing left to check. One line per operation, so that a new one cannot slip past. -/
def Instr.wellFormed : Instr → Bool
  | .crcStart => true
  | .crcWordS _ => true
  | .crcWordT _ => true
  | .crcBufS => true
  | .crcBufT => true
  | .tblInit => true
  | .tblRead _ => true
  | .pktBuild _ => true
  | .pktValidate => true

namespace Machine

/-- R31: a register access is 32 bits wide and aligned to 4 bytes. -/
def regAccessOk (off width : Nat) : Bool := width == 4 && off % 4 == 0

/-- R54: a host DMEM access is 1, 2 or 4 bytes wide, at any alignment. -/
def dmemWidthOk (width : Nat) : Bool := width == 1 || width == 2 || width == 4

/-- The form a host access must have before its addresses are looked at (R31, R54). -/
def Request.wellFormed : Request → Bool
  | .regWrite off width _ => regAccessOk off width
  | .regRead off width => regAccessOk off width
  | .dmemWrite _ width _ => dmemWidthOk width
  | .dmemRead _ width => dmemWidthOk width

end Machine

end Sys2Proof
end

