-- ==== Sys2Proof/Machine/Access.lean ====
section
/-! DEFINITION. Host accesses to the register window and to DMEM, the operation an OP write runs, and reset
(R20 to R31, R54, R60, R210, R220). -/

namespace Sys2Proof.Machine

/-! ## The register window -/

/-- The registers of a bank (R21). -/
inductive RegName where
  | op | status | cause | src | len | dst | cmd | addrLo | addrHi | decl | acc | result | frameLen
  deriving DecidableEq, Repr

/-- The offset of a register within its bank (R21). -/
def RegName.offset : RegName → Nat
  | .op => 0x00
  | .status => 0x04
  | .cause => 0x08
  | .src => 0x0C
  | .len => 0x10
  | .dst => 0x14
  | .cmd => 0x18
  | .addrLo => 0x1C
  | .addrHi => 0x20
  | .decl => 0x24
  | .acc => 0x28
  | .result => 0x2C
  | .frameLen => 0x30

/-- Every register of a bank, in the order of R21. -/
def RegName.all : List RegName :=
  [.op, .status, .cause, .src, .len, .dst, .cmd, .addrLo, .addrHi, .decl, .acc, .result, .frameLen]

/-- The register at an offset within a bank; none at a reserved one (R21, R30). -/
def RegName.at? (off : Nat) : Option RegName := RegName.all.find? (fun r => r.offset == off)

/-- The bytes of the register window from one bank to the next (R20). -/
def bankStride : Nat := 0x100

/-- The port whose bank holds a window offset (R20). -/
def portOf (off : Nat) : Nat := off / bankStride

/-- The window offset of register `r` of port `p` (R20). -/
def regOffset (p : Nat) (r : RegName) : Nat := p * bankStride + r.offset

/-- The register a window offset names, with its port and its bank: none at a reserved offset and at one at or beyond
`P_N_PORTS × 0x100` (R30). -/
def State.regAt (s : State) (off : Nat) : Option (Nat × Bank × RegName) :=
  if portOf off < s.cfg.nPorts then
    match s.bank? (portOf off), RegName.at? (off % bankStride) with
    | some b, some r => some (portOf off, b, r)
    | _, _ => none
  else none

/-- What a host reads from a register (R21 to R29): STATUS with the shared TVALID (R24). -/
def State.readReg (s : State) (b : Bank) : RegName → Word32
  | .op => b.op
  | .status => statusWord b.err b.trunc s.tvalid
  | .cause => b.cause
  | .src => b.src
  | .len => b.len
  | .dst => b.dst
  | .cmd => b.cmd
  | .addrLo => b.addrLo
  | .addrHi => b.addrHi
  | .decl => b.decl
  | .acc => b.acc
  | .result => b.result
  | .frameLen => b.frameLen

/-- The bank after a host writes `v` to a register (R21 to R29): the read-only ones ignore it, STATUS clears TRUNC where
bit 1 is 1, OP stores it (R23). -/
def Bank.hostWrite (b : Bank) (r : RegName) (v : Word32) : Bank :=
  match r with
  | .op => { b with op := v }
  | .status => { b with trunc := truncAfterWrite b.trunc v }
  | .cause => b
  | .src => { b with src := v }
  | .len => { b with len := v }
  | .dst => { b with dst := v }
  | .cmd => { b with cmd := v }
  | .addrLo => { b with addrLo := v }
  | .addrHi => { b with addrHi := v }
  | .decl => { b with decl := v }
  | .acc => { b with acc := v }
  | .result => b
  | .frameLen => b

/-! ## Operations -/

/-- Decodes an operation word and runs it on the issuing port; a word that decodes to nothing raises ILLEGAL_OP (R76,
R77, R112, R181). -/
def State.runWord (s : State) (v : Word32) : Host.Outcome State Fault Refusal :=
  match decode v with
  | .instr i => exec i s
  | .illegalOp => s.withIssuer fun b => s.raise b .illegalOp

/-- The state in which the operation of an OP write runs: the word stored in OP, whatever comes of it (R23), and the
port the issuing one. `b` is the port's bank. -/
def State.issue (s : State) (p : Nat) (b : Bank) (v : Word32) : State :=
  ({ s with issuer := p } : State).setBank p (b.hostWrite .op v)

/-! ## Host events -/

/-- Returns a value to the requester of stream `k` (R220). -/
def State.reply (s : State) (k : Nat) (v : Word32) : State :=
  { s with replies := { stream := k, value := v } :: s.replies }

/-- A host register write (R20 to R31): an OP write runs an operation, and a write to a reserved offset is ignored. -/
def State.regWrite (s : State) (off width : Nat) (v : Word32) : Host.Outcome State Fault Refusal :=
  if !regAccessOk off width then .refused (.registerAccess off width)
  else
    match s.regAt off with
    | none => .next s
    | some (p, b, .op) => (s.issue p b v).runWord v
    | some (p, b, r) => .next (s.setBank p (b.hostWrite r v))

/-- A host register read (R20 to R31): a reserved offset reads 0. It changes no register and no byte (R57). -/
def State.regRead (s : State) (k off width : Nat) : Host.Outcome State Fault Refusal :=
  if !regAccessOk off width then .refused (.registerAccess off width)
  else
    match s.regAt off with
    | none => .next (s.reply k 0)
    | some (_, b, r) => .next (s.reply k (s.readReg b r))

/-- A host DMEM write of 1, 2 or 4 bytes, little-endian (R54). -/
def State.dmemWrite (s : State) (addr width : Nat) (v : Word32) : Host.Outcome State Fault Refusal :=
  if !dmemWidthOk width then .refused (.dmemWidth width)
  else if pastDmem s.cfg addr width then .refused (.dmemRange addr width)
  else .next (s.memWrite addr width v)

/-- A host DMEM read of 1, 2 or 4 bytes, little-endian (R54). It changes no register and no byte (R57). -/
def State.dmemRead (s : State) (k addr width : Nat) : Host.Outcome State Fault Refusal :=
  if !dmemWidthOk width then .refused (.dmemWidth width)
  else if pastDmem s.cfg addr width then .refused (.dmemRange addr width)
  else .next (s.reply k (s.memRead addr width))

/-- One event of the requester of stream `k` (R60, R220). -/
def State.serve (s : State) (k : Nat) (r : Request) : Host.Outcome State Fault Refusal :=
  match r with
  | .regWrite off width v => s.regWrite off width v
  | .regRead off width => s.regRead k off width
  | .dmemWrite addr width v => s.dmemWrite addr width v
  | .dmemRead addr width => s.dmemRead k addr width

/-- Reset of every port and of the shared state, between two events (R210, R211). The configuration stays (R35), and so
do what the hosts have issued and been answered. Each reset draws its free values anew (R67). -/
def State.resetNow (s : State) : State :=
  { State.resetWith s.cfg (s.epoch + 1) with streams := s.streams, agenda := s.agenda, replies := s.replies }

/-! ## The order of events -/

/-- Takes the oldest request of stream `k` (R61); none where it has issued nothing more. -/
def popStream : List (List Request) → Nat → Option (Request × List (List Request))
  | [], _ => none
  | [] :: _, 0 => none
  | (r :: q) :: qs, 0 => some (r, q :: qs)
  | q :: qs, k + 1 => (popStream qs k).map (fun x => (x.1, q :: x.2))

/-- Puts a request before all others of stream `k`, making the stream where there is none. -/
def pushStream (r : Request) : Nat → List (List Request) → List (List Request)
  | 0, [] => [[r]]
  | 0, q :: qs => (r :: q) :: qs
  | k + 1, [] => [] :: pushStream r k []
  | k + 1, q :: qs => q :: pushStream r k qs

/-- One turn of the order of events (R60, R211). A turn of a requester with nothing issued passes. -/
def State.turn (s : State) (t : Turn) : Host.Outcome State Fault Refusal :=
  match t with
  | .reset => .next s.resetNow
  | .serve k =>
    match popStream s.streams k with
    | none => .next s
    | some (r, qs) => State.serve { s with streams := qs } k r

end Sys2Proof.Machine
end

