-- ==== Sys2Proof/Machine/Step.lean ====
section
/-! DEFINITION. One step of the CPE: the next event of the total order of R60. -/

namespace Sys2Proof.Machine

/-- The next event: the arbiter's next pick serves that requester's oldest request, as one atomic step (R60, R61). With
no pick left the CPE waits: nothing in it advances by itself (R22). -/
def step (s : State) : Host.Outcome State Fault Refusal :=
  match s.agenda with
  | [] => .next s
  | t :: rest => State.turn { s with agenda := rest } t

/-- `s` with a write of the word `w` to port 0's OP register as the next event: the CPE fetches no instruction (R65), an
operation word comes only from an OP write (R70). -/
def State.withFetchWord (s : State) (nbits w : Nat) : State :=
  { s with
    agenda := .serve 0 :: s.agenda
    streams := pushStream (.regWrite (regOffset 0 .op) 4 (BitVec.ofNat 32 (w % 2 ^ nbits))) 0 s.streams }

end Sys2Proof.Machine
end

