-- ==== Sys2Proof/Safety.lean ====
section
/-! DEFINITION. What a good state of the CPE is, and the terms claims about it use. -/

namespace Sys2Proof.Machine

/-! ## Good states -/

/-- The values CAUSE ever holds: NONE, ILLEGAL_OP, FIELD_OVERFLOW 1 to 3 and MEM_RANGE 1 and 2 (R180). SELF_CHECK is not
among them: it cannot occur (R186). -/
def reportedCauses : List Word32 :=
  [0x000, 0x001, 0x102, 0x202, 0x302, 0x103, 0x203]

/-- ERR and CAUSE tell of the same operation: CAUSE is a code the CPE writes, and ERR is set iff it is not NONE
(R24, R25, R180, R184, R185). -/
structure Bank.Good (b : Bank) : Prop where
  cause_reported : b.cause ∈ reportedCauses
  err_iff_cause : b.err = true ↔ b.cause ≠ 0

/-- The states the CPE can be in. -/
structure State.Inv (s : State) : Prop where
  /-- The parameters are within the bounds of R8. -/
  config_wf : s.cfg.wf
  /-- There are `P_N_PORTS` banks (R20, R38). -/
  bank_count : s.banks.length = s.cfg.nPorts
  /-- Each bank's ERR and CAUSE report the last operation (R24, R25). -/
  banks_good : ∀ b ∈ s.banks, b.Good
  /-- While `g.TVALID = 1`, `g.DTAB[w] = T(w)` for every w (R33). -/
  table_built : s.tvalid = true → ∀ w : Word16, s.dtab[w.toNat]? = some (contribT s.cfg.matrix w)
  /-- `g.DTAB` has 65536 entries (R32). -/
  table_length : s.dtab.length = 65536
  /-- The byte tables exist only in the BYTE_TABLES form, from the table build on (R34). -/
  state_tables : s.stateTables = if s.tvalid then builtStateTables s.cfg else none
  /-- The memory is in canonical form. -/
  dmem_wf : Memory.wf s.dmem
  /-- Only addresses below `P_DMEM_SIZE` hold a byte (R50, R58). -/
  dmem_inside : ∀ c ∈ s.dmem, c.1 < s.cfg.dmemSize

/-! ## Frames -/

/-- Every bank but port `p`'s is the same in both states. -/
def BanksSameBut (p : Nat) (s t : State) : Prop :=
  t.banks.length = s.banks.length ∧ ∀ q, q ≠ p → t.bank? q = s.bank? q

/-- Nothing differs but the bank of port `p`. -/
def OnlyBank (p : Nat) (s t : State) : Prop :=
  t = { s with banks := t.banks } ∧ BanksSameBut p s t

/-- Nothing differs but the bank of port `p`, `g.TVALID` and the tables. -/
def OnlyBankAndTable (p : Nat) (s t : State) : Prop :=
  t = { s with banks := t.banks, tvalid := t.tvalid, dtab := t.dtab, stateTables := t.stateTables } ∧
    BanksSameBut p s t

/-- Nothing differs but the bank of port `p` and DMEM. -/
def OnlyBankAndDmem (p : Nat) (s t : State) : Prop :=
  t = { s with banks := t.banks, dmem := t.dmem } ∧ BanksSameBut p s t

/-- The registers no operation writes are the same in both banks: OP and the operand registers (R26). -/
structure SameOperands (b c : Bank) : Prop where
  op : c.op = b.op
  src : c.src = b.src
  len : c.len = b.len
  dst : c.dst = b.dst
  cmd : c.cmd = b.cmd
  addrLo : c.addrLo = b.addrLo
  addrHi : c.addrHi = b.addrHi
  decl : c.decl = b.decl

/-- The shared table after a table operation: as it was where `g.TVALID` was 1, else `T(w)` at every w (R111). -/
def TableEnsured (s t : State) : Prop :=
  t.tvalid = true ∧
    (s.tvalid = true → t.dtab = s.dtab ∧ t.stateTables = s.stateTables) ∧
    (s.tvalid = false → t.dtab.length = 65536 ∧
      ∀ w : Word16, t.dtab[w.toNat]? = some (contribT s.cfg.matrix w))

/-- Operation `i` run in `s` by a port with bank `b` ends in the error that writes `cause`: ERR and CAUSE are all that
changes (R184). -/
def ReportsOnly (i : Instr) (s : State) (b : Bank) (cause : Word32) : Prop :=
  ∃ t, exec i s = .next t ∧ t.bank? s.issuer = some { b with err := true, cause := cause } ∧ OnlyBank s.issuer s t

/-- What is in place at the end of an operation that succeeds on bank `b`: ERR and CAUSE cleared (R185). -/
abbrev Bank.Reported (b : Bank) : Bank := { b with err := false, cause := 0 }

/-- Port `p` of `s` exists and its bank is `b`. -/
def State.HasPort (s : State) (p : Nat) (b : Bank) : Prop := p < s.cfg.nPorts ∧ s.bank? p = some b

/-! ## Words and accesses with no meaning -/

/-- The words R76 lists: a reserved OPC, RSV ≠ 0, D = 1 off PKT_BUILD, IMM ≠ 0 where no immediate is taken. -/
def IllegalFields (v : Word32) : Prop :=
  fieldOpc v ∉ [0x01#8, 0x02#8, 0x03#8, 0x04#8, 0x05#8, 0x06#8, 0x07#8, 0x10#8, 0x11#8] ∨
    fieldRsv v ≠ 0 ∨
    (fieldD v = true ∧ fieldOpc v ≠ 0x10#8) ∨
    (fieldImm v ≠ 0 ∧ fieldOpc v ∉ [0x02#8, 0x03#8, 0x07#8])

/-- The accesses that have no step: a register access not 32 bits wide or not aligned to 4 bytes, a DMEM access not 1, 2
or 4 bytes wide or reaching a byte at or beyond `P_DMEM_SIZE` (R31, R54, R199). -/
def Request.HasNoStep (c : Config) : Request → Prop
  | .regWrite off width _ => width ≠ 4 ∨ off % 4 ≠ 0
  | .regRead off width => width ≠ 4 ∨ off % 4 ≠ 0
  | .dmemWrite addr width _ => width ∉ [1, 2, 4] ∨ c.dmemSize < addr + width
  | .dmemRead addr width => width ∉ [1, 2, 4] ∨ c.dmemSize < addr + width

/-! ## The order of events -/

/-- The next event of a state is the request `r` of requester `k`. -/
def State.NextRequest (s : State) (k : Nat) (r : Request) : Prop :=
  ∃ rest qs, s.agenda = .serve k :: rest ∧ popStream s.streams k = some (r, qs)

/-- The request the next turn picks, with its requester, where the turn picks one. -/
def State.nextRequest? (s : State) : Option (Nat × Request) :=
  match s.agenda with
  | .serve k :: _ => (popStream s.streams k).map (fun x => (k, x.1))
  | _ => none

/-- The step from `s` serves `x.2`, the oldest request of requester `x.1`, takes it off that requester's stream, and leads
to `t` (R60, R61). -/
def State.Performs (s : State) (x : Nat × Request) (t : State) : Prop :=
  ∃ rest q, s.agenda = .serve x.1 :: rest ∧ s.streams[x.1]? = some (x.2 :: q) ∧ step s = .next t ∧
    State.serve { s with agenda := rest, streams := s.streams.set x.1 q } x.1 x.2 = .next t ∧
    t.agenda = rest ∧ t.streams = s.streams.set x.1 q

/-- The steps from `s` perform the events of the list one after the other, one a step, and lead to `u`. -/
def State.RunOf : State → List (Nat × Request) → State → Prop
  | s, [], u => u = s
  | s, x :: l, u => ∃ t, s.Performs x t ∧ State.RunOf t l u

/-- The requests served in the first `n` steps from `s`, in order, with their requesters. -/
def State.served : Nat → State → List (Nat × Request)
  | 0, _ => []
  | n + 1, s =>
    match step s with
    | .next t => s.nextRequest?.toList ++ State.served n t
    | _ => []

/-- What each of `n` requesters has issued, in its own order, of a list of requests. -/
def streamsOf (n : Nat) (l : List (Nat × Request)) : List (List Request) :=
  (List.range n).map (fun k => (l.filter (fun x => x.1 == k)).map (fun x => x.2))

end Sys2Proof.Machine
end

