-- ==== Sys2Proof/Certificates/Slice0/Obligations.lean ====
section
/-! DEFINITION. The statements about the CPE that are to be proved. -/

open Sys2Proof Sys2Proof.Machine

/-! ## Encoding -/

/-- Decoding the word of an operation gives that operation, at every value of its operands (R71, R73, R77): no bit of an
encoding is dropped. -/
def Obligations.DecodeOfEncode : Prop :=
  ∀ i : Instr, i.wellFormed = true → decode (encode i) = .instr i ∧ decodeTableWord 32 (encode i).toNat = some i

/-- Each word has one meaning: a word that decodes to an operation is the word the encoder gives for it (R73). -/
def Obligations.EncodeOfDecode : Prop :=
  ∀ (v : Word32) (i : Instr), decode v = .instr i → encode i = v

/-- A word is legal iff it matches exactly one row of the opcode table, and the words R76 lists are those that match
none (R73, R76). -/
def Obligations.LegalWordMatchesExactlyOneRow : Prop :=
  ∀ v : Word32,
    (IllegalFields v → (opcodeTable.filter (fun r => r.hit v)).length = 0 ∧ decode v = .illegalOp) ∧
      (¬ IllegalFields v →
        (opcodeTable.filter (fun r => r.hit v)).length = 1 ∧
          ∃ r ∈ opcodeTable, r.hit v = true ∧ decode v = .instr (r.operation v))

/-- Words written out from R71 and R72, field by field. -/
def Obligations.WrittenOutWordsDecode : Prop :=
  decode 0b00000000000000000000000000000001#32 = .instr .crcStart ∧
    decode 0b00000010000000010000000000000010#32 = .instr (.crcWordS 0x0201#16) ∧
    decode 0b10000000000000000000000000000111#32 = .instr (.tblRead 0x8000#16) ∧
    decode 0b00000000000000000000000000010000#32 = .instr (.pktBuild false) ∧
    decode 0b00000000000000000000000100010000#32 = .instr (.pktBuild true) ∧
    decode 0b00000000000000000000000000010001#32 = .instr .pktValidate

/-- An OP write of a word R76 lists raises ILLEGAL_OP: the word is stored in OP, ERR and CAUSE report, and nothing else
of the CPE changes (R23, R76, R181). `issuer` is the model's note of which port ran last. -/
def Obligations.IllegalWordIsReported : Prop :=
  ∀ (s : State) (k p : Nat) (b : Bank) (v : Word32), s.HasPort p b → IllegalFields v →
    ∃ t, s.serve k (.regWrite (regOffset p .op) 4 v) = .next t ∧
      t.bank? p = some { b with op := v, err := true, cause := 0x00000001#32 } ∧
      t = { s with banks := t.banks, issuer := p } ∧ BanksSameBut p s t

/-! ## Events and their order -/

/-- A step serves the oldest request of the requester the arbiter picked next, and takes it from that requester's stream
and from the agenda (R60, R61). Streams and agenda are the model's way to hold what R60 and R61 order (log entries 1
and 2). -/
def Obligations.StepServesThePickedRequest : Prop :=
  ∀ (s : State) (k : Nat) (rest : List Turn) (r : Request) (q : List Request),
    s.agenda = .serve k :: rest → s.streams[k]? = some (r :: q) →
      step s = State.serve { s with agenda := rest, streams := s.streams.set k q } k r

/-- A host write of v to a port's OP register stores v in OP and runs the operation v encodes, in one step (R23).
`issuer`, the port whose operation runs, is the model's own field (log entry 4). -/
def Obligations.StepRunsTheDecodedOperation : Prop :=
  ∀ (s : State) (k p : Nat) (b : Bank) (v : Word32) (i : Instr) (rest : List Turn) (q : List Request),
    s.agenda = .serve k :: rest → s.streams[k]? = some (.regWrite (regOffset p .op) 4 v :: q) →
      s.HasPort p b → decode v = .instr i →
        step s = exec i { s with
          agenda := rest
          streams := s.streams.set k q
          issuer := p
          banks := s.banks.set p { b with op := v } }

/-- Every interleaving of the requesters' streams is a run: from any good state, for some agenda, the steps perform the
requests in just that order, one a step, and nothing is left to do. Accesses that have no step are no events (R31, R54,
R60). -/
def Obligations.EveryInterleavingIsServed : Prop :=
  ∀ (s : State) (n : Nat) (l : List (Nat × Request)), s.Inv →
    (∀ x ∈ l, x.1 < n ∧ ¬ x.2.HasNoStep s.cfg) →
      ∃ (agenda : List Turn) (u : State),
        State.RunOf { s with agenda := agenda, streams := streamsOf n l } l u ∧ u.agenda = [] ∧ ∀ q ∈ u.streams, q = []

/-- The events of a requester take effect in the order it issued them (R61). Each step serves the oldest request of one
requester, leaving the rest of its stream and every other stream as they were, or serves none and leaves every stream;
and what any number of steps serve of a requester is the beginning of what it had issued, in that order. The rest is the
model's choice and no rule of the spec: streams and agenda hold what is to come (log entries 1 and 2), a reset leaves every
pending stream and the picks after it as they were (log entry 9), and an empty agenda or the turn of a silent requester
changes nothing else (log entry 14). -/
def Obligations.IssueOrderIsKept : Prop :=
  (∀ s t : State, step s = .next t →
    (∃ x, s.nextRequest? = some x ∧ s.Performs x t) ∨
      (s.nextRequest? = none ∧ t.streams = s.streams ∧
        (t = { s with agenda := s.agenda.tail } ∨ ∃ rest, s.agenda = .reset :: rest ∧ t.agenda = rest))) ∧
    ∀ (n : Nat) (s : State) (k : Nat),
      ((s.served n).filter (fun x => x.1 == k)).map (fun x => x.2) <+: (s.streams[k]?).getD []

/-- An event is refused iff its access is malformed or outside DMEM, and in a good state no event faults: every other
event has its one step (R31, R54, R199, R219, R220). That "no step" is the outcome refused is log entry 11, that a
malformed access to a reserved offset is refused is log entry 20, and the fault that never comes is log entry 4's. -/
def Obligations.OnlyMalformedAccessHasNoStep : Prop :=
  ∀ (s : State) (k : Nat) (r : Request), s.Inv →
    ((∃ x, s.serve k r = .refused x) ↔ r.HasNoStep s.cfg) ∧ (∀ f, s.serve k r ≠ .fault f)

/-- A DMEM write of n bytes writes the low n bytes of the value, least significant first, and nothing else; the next read
of the same bytes returns them, zero-extended (R11, R52, R54, R62). That a narrow access uses the low bytes of a 32-bit
value is the model's reading (log entry 15). -/
def Obligations.HostDmemWriteThenRead : Prop :=
  ∀ (s : State) (k j addr width : Nat) (v : Word32), Memory.wf s.dmem → width ∈ [1, 2, 4] →
    addr + width ≤ s.cfg.dmemSize →
      ∃ t, s.serve k (.dmemWrite addr width v) = .next t ∧
        t = { s with dmem := t.dmem } ∧
        (∀ a, t.memByte a =
          if addr ≤ a ∧ a < addr + width then v.extractLsb' (8 * (a - addr)) 8 else s.memByte a) ∧
        t.serve j (.dmemRead addr width) = .next (t.reply j (v &&& BitVec.ofNat 32 (2 ^ (8 * width) - 1)))

/-- A 4-byte read equals LE32 of its four bytes and a 2-byte read LE16 of its two (R53). -/
def Obligations.MixedWidthReadsAreLittleEndian : Prop :=
  ∀ (s : State) (a : Nat),
    s.memRead a 4 = le32 ((s.memRead a 1).setWidth 8) ((s.memRead (a + 1) 1).setWidth 8)
        ((s.memRead (a + 2) 1).setWidth 8) ((s.memRead (a + 3) 1).setWidth 8) ∧
      s.memRead a 2 = (le16 ((s.memRead a 1).setWidth 8) ((s.memRead (a + 1) 1).setWidth 8)).setWidth 32

/-- A byte of DMEM reads as before after every step but a reset, a DMEM write of that byte, and a PKT_BUILD whose frame
range holds it: a read returns the last write, or the byte's one draw (R60, R62, R67). -/
def Obligations.ByteChangesOnlyByAWriteToIt : Prop :=
  ∀ (s t : State) (a : Nat), Memory.wf s.dmem → step s = .next t → t.memByte a ≠ s.memByte a →
    (∃ rest, s.agenda = .reset :: rest) ∨
      (∃ k addr width v, s.NextRequest k (.dmemWrite addr width v) ∧ addr ≤ a ∧ a < addr + width) ∨
      ∃ k p b v d, s.NextRequest k (.regWrite (regOffset p .op) 4 v) ∧ s.HasPort p b ∧ decode v = .instr (.pktBuild d) ∧
        b.dst.toNat ≤ a ∧ a < b.dst.toNat + (12 + if d then b.decl.toNat else b.len.toNat)

/-- A read of a register or of DMEM changes no register and no byte: only the reply is new (R57). -/
def Obligations.ReadsHaveNoSideEffect : Prop :=
  ∀ (s t : State) (k : Nat) (r : Request),
    ((∃ off width, r = .regRead off width) ∨ (∃ addr width, r = .dmemRead addr width)) →
      s.serve k r = .next t → ∃ v, t = { s with replies := { stream := k, value := v } :: s.replies }

/-- A register read returns the register: OP the last word written, STATUS its fields ERR, TRUNC and TVALID in bits 0, 1
and 2 and 0 elsewhere, the others their contents (R21 to R29). -/
def Obligations.RegisterReadReturnsTheRegister : Prop :=
  ∀ (s : State) (k p : Nat) (b : Bank) (r : RegName), s.HasPort p b →
    ∃ v, s.serve k (.regRead (regOffset p r) 4) = .next (s.reply k v) ∧
      (match r with
        | .op => v = b.op
        | .status => v.getLsbD 0 = b.err ∧ v.getLsbD 1 = b.trunc ∧ v.getLsbD 2 = s.tvalid ∧
            ∀ i, 3 ≤ i → v.getLsbD i = false
        | .cause => v = b.cause
        | .src => v = b.src
        | .len => v = b.len
        | .dst => v = b.dst
        | .cmd => v = b.cmd
        | .addrLo => v = b.addrLo
        | .addrHi => v = b.addrHi
        | .decl => v = b.decl
        | .acc => v = b.acc
        | .result => v = b.result
        | .frameLen => v = b.frameLen)

/-- A host write to a read/write register gives it the value, which the next read returns, and changes no other register
and nothing else; a host write to a read-only register is ignored (R21, R25 to R29). -/
def Obligations.RegisterWriteThenRead : Prop :=
  ∀ (s : State) (k p : Nat) (b : Bank) (r : RegName) (v : Word32), s.HasPort p b →
    (r ∈ [RegName.src, .len, .dst, .cmd, .addrLo, .addrHi, .decl, .acc] →
      ∃ t c, s.serve k (.regWrite (regOffset p r) 4 v) = .next t ∧ OnlyBank p s t ∧ t.bank? p = some c ∧
        t.readReg c r = v ∧ ∀ q, q ≠ r → t.readReg c q = s.readReg b q) ∧
      (r ∈ [RegName.cause, .result, .frameLen] → s.serve k (.regWrite (regOffset p r) 4 v) = .next s)

/-- A reserved offset, and one at or beyond `P_N_PORTS × 0x100`, reads 0 and ignores writes (R30). -/
def Obligations.ReservedOffsetsReadZero : Prop :=
  ∀ (s : State) (k off : Nat) (v : Word32), off % 4 = 0 →
    (0x34 ≤ off % 0x100 ∨ s.cfg.nPorts * 0x100 ≤ off) →
      s.serve k (.regWrite off 4 v) = .next s ∧ s.serve k (.regRead off 4) = .next (s.reply k 0)

/-- A host write to STATUS clears TRUNC where bit 1 is 1, leaves it where bit 1 is 0, and changes nothing else (R24). -/
def Obligations.StatusWriteOneClearsTrunc : Prop :=
  ∀ (s : State) (k p : Nat) (b : Bank) (v : Word32), s.HasPort p b →
    ∃ t, s.serve k (.regWrite (regOffset p .status) 4 v) = .next t ∧
      t.bank? p = some { b with trunc := if v.getLsbD 1 then false else b.trunc } ∧ OnlyBank p s t

/-- TRUNC is sticky: a step that clears it is a reset or a host write of 1 to STATUS bit 1 of that port; no operation
clears it (R24, R218). -/
def Obligations.TruncIsSticky : Prop :=
  ∀ (s t : State) (p : Nat) (b c : Bank), step s = .next t → s.bank? p = some b → b.trunc = true →
    t.bank? p = some c → c.trunc = false →
      (∃ rest, s.agenda = .reset :: rest) ∨
        ∃ k v, s.NextRequest k (.regWrite (regOffset p .status) 4 v) ∧ v.getLsbD 1 = true

/-! ## The CRC family -/

/-- CRC_START sets ACC and RESULT to `P_CRC_INIT` and reports success; the table and every other port stay (R113). -/
def Obligations.CrcStartLoadsTheInitialValue : Prop :=
  ∀ (s : State) (b : Bank), s.bank? s.issuer = some b →
    ∃ t, exec .crcStart s = .next t ∧
      t.bank? s.issuer = some (Bank.Reported { b with acc := s.cfg.crcInit, result := s.cfg.crcInit }) ∧
      OnlyBank s.issuer s t

/-- CRC_WORD_S sets ACC and RESULT to F(ACC, IMM), whose bit i is 1 iff an odd number of the bits of {IMM, ACC} that row
i of the matrix selects are 1, and changes nothing else but ERR and CAUSE (R10, R100, R114). -/
def Obligations.CrcWordSFoldsTheImmediate : Prop :=
  ∀ (s : State) (b : Bank) (w : Word16), s.bank? s.issuer = some b →
    ∃ t v, exec (.crcWordS w) s = .next t ∧
      (∀ (i : Nat) (h : i < 32), v.getLsbD i = true ↔
        ((List.range 48).filter (fun j => s.cfg.matrix[i].getLsbD j && (w ++ b.acc).getLsbD j)).length % 2 = 1) ∧
      t.bank? s.issuer = some (Bank.Reported { b with acc := v, result := v }) ∧ OnlyBank s.issuer s t

/-- CRC_WORD_T builds the table where it is not built, sets ACC and RESULT to S(ACC) ⊕ DTAB[IMM], and changes nothing
else but ERR and CAUSE (R111, R115). -/
def Obligations.CrcWordTFoldsTheTableEntry : Prop :=
  ∀ (s : State) (b : Bank) (w : Word16), s.bank? s.issuer = some b →
    ∃ t, exec (.crcWordT w) s = .next t ∧ TableEnsured s t ∧
      t.bank? s.issuer = some (Bank.Reported { b with
        acc := contribS s.cfg.matrix b.acc ^^^ tableEntry t.dtab w
        result := contribS s.cfg.matrix b.acc ^^^ tableEntry t.dtab w }) ∧
      OnlyBankAndTable s.issuer s t

/-- CRC_BUF_S folds F over the words of DMEM[SRC, SRC+LEN) into ACC and RESULT and changes nothing else but ERR and
CAUSE, wherever the range lies in DMEM (R104, R116). -/
def Obligations.CrcBufSFoldsTheBuffer : Prop :=
  ∀ (s : State) (b : Bank), s.bank? s.issuer = some b → b.src.toNat + b.len.toNat ≤ s.cfg.dmemSize →
    ∃ t v, exec .crcBufS s = .next t ∧
      v = (dataWords (s.memBytes b.src.toNat b.len.toNat)).foldl (stepF s.cfg.matrix) b.acc ∧
      t.bank? s.issuer = some (Bank.Reported { b with acc := v, result := v }) ∧ OnlyBank s.issuer s t

/-- CRC_BUF_T builds the table where it is not built, folds S(s) ⊕ DTAB[w] over the words of DMEM[SRC, SRC+LEN) into ACC
and RESULT, and changes nothing else but ERR and CAUSE, wherever the range lies in DMEM (R106, R117). -/
def Obligations.CrcBufTFoldsTheBuffer : Prop :=
  ∀ (s : State) (b : Bank), s.bank? s.issuer = some b → b.src.toNat + b.len.toNat ≤ s.cfg.dmemSize →
    ∃ t v, exec .crcBufT s = .next t ∧ TableEnsured s t ∧
      v = (dataWords (s.memBytes b.src.toNat b.len.toNat)).foldl
        (fun a w => contribS s.cfg.matrix a ^^^ tableEntry t.dtab w) b.acc ∧
      t.bank? s.issuer = some (Bank.Reported { b with acc := v, result := v }) ∧ OnlyBankAndTable s.issuer s t

/-- CRC_BUF_S, CRC_BUF_T and PKT_VALIDATE report MEM_RANGE detail 1 where SRC + LEN, taken exactly, is beyond
`P_DMEM_SIZE`; the table is not built (R56, R111, R183). -/
def Obligations.SourceRangeErrorIsReported : Prop :=
  ∀ (i : Instr) (s : State) (b : Bank), i ∈ [Instr.crcBufS, .crcBufT, .pktValidate] → s.bank? s.issuer = some b →
    s.cfg.dmemSize < b.src.toNat + b.len.toNat → ReportsOnly i s b 0x00000103#32

/-- TBL_INIT builds the table where it is not built and changes nothing else but ERR and CAUSE (R118). -/
def Obligations.TblInitEnsuresTheTable : Prop :=
  ∀ (s : State) (b : Bank), s.bank? s.issuer = some b →
    ∃ t, exec .tblInit s = .next t ∧ TableEnsured s t ∧ t.bank? s.issuer = some (Bank.Reported b) ∧
      OnlyBankAndTable s.issuer s t

/-- TBL_READ builds the table where it is not built and sets RESULT to T(IMM); ACC is unchanged (R33, R119). -/
def Obligations.TblReadReturnsTheEntry : Prop :=
  ∀ (s : State) (b : Bank) (w : Word16), s.Inv → s.bank? s.issuer = some b →
    ∃ t, exec (.tblRead w) s = .next t ∧ TableEnsured s t ∧
      t.bank? s.issuer = some (Bank.Reported { b with result := contribT s.cfg.matrix w }) ∧
      OnlyBankAndTable s.issuer s t

/-! ## The Packet family -/

/-- PKT_BUILD, where the three values fit their fields and both ranges lie in DMEM, writes at DST the frame of R81: start
code, command, address, length, the payload padded with zeros or cut to the declared length L, and the sum of all of it.
The payload is the one before the write. FRAME_LEN is 12 + L, RESULT the sum, and TRUNC is set if LEN is more than L. No
other byte and no other register changes but ERR and CAUSE (R81, R142, R143, R147, R217). -/
def Obligations.PktBuildWritesTheFrame : Prop :=
  ∀ (s : State) (b : Bank) (d : Bool), Memory.wf s.dmem → s.bank? s.issuer = some b →
    let l := if d then b.decl.toNat else b.len.toNat
    let payload := s.memBytes b.src.toNat b.len.toNat
    let head : List Byte :=
      [0xA5#8, b.cmd.extractLsb' 0 8, b.addrLo.extractLsb' 0 8, b.addrLo.extractLsb' 8 8, b.addrLo.extractLsb' 16 8,
        b.addrLo.extractLsb' 24 8, BitVec.ofNat 8 l, BitVec.ofNat 8 (l / 256)] ++
      (if b.len.toNat < l then payload ++ List.replicate (l - b.len.toNat) 0#8 else payload.take l)
    let sum := byteSum head
    let f := head ++
      [BitVec.ofNat 8 sum, BitVec.ofNat 8 (sum / 256), BitVec.ofNat 8 (sum / 65536), BitVec.ofNat 8 (sum / 16777216)]
    b.cmd.toNat ≤ 0xFF → b.addrHi = 0 → l ≤ 0xFFFF →
      b.src.toNat + b.len.toNat ≤ s.cfg.dmemSize → b.dst.toNat + (12 + l) ≤ s.cfg.dmemSize →
        ∃ t, exec (.pktBuild d) s = .next t ∧
          t.bank? s.issuer = some (Bank.Reported { b with
            frameLen := BitVec.ofNat 32 (12 + l)
            result := BitVec.ofNat 32 sum
            trunc := b.trunc || decide (l < b.len.toNat) }) ∧
          (∀ a, t.memByte a =
            if b.dst.toNat ≤ a ∧ a < b.dst.toNat + (12 + l) then f.getD (a - b.dst.toNat) 0 else s.memByte a) ∧
          OnlyBankAndDmem s.issuer s t

/-- PKT_BUILD reports the first error it meets: FIELD_OVERFLOW for the command, the address, then the declared length,
then MEM_RANGE for the range read, then for the range written; it changes nothing else (R182, R183, R184, R187). -/
def Obligations.PktBuildReportsTheFirstError : Prop :=
  ∀ (s : State) (b : Bank) (d : Bool), s.bank? s.issuer = some b →
    let l := if d then b.decl.toNat else b.len.toNat
    (0xFF < b.cmd.toNat → ReportsOnly (.pktBuild d) s b 0x00000102#32) ∧
      (b.cmd.toNat ≤ 0xFF → b.addrHi ≠ 0 → ReportsOnly (.pktBuild d) s b 0x00000202#32) ∧
      (b.cmd.toNat ≤ 0xFF → b.addrHi = 0 → 0xFFFF < l → ReportsOnly (.pktBuild d) s b 0x00000302#32) ∧
      (b.cmd.toNat ≤ 0xFF → b.addrHi = 0 → l ≤ 0xFFFF → s.cfg.dmemSize < b.src.toNat + b.len.toNat →
        ReportsOnly (.pktBuild d) s b 0x00000103#32) ∧
      (b.cmd.toNat ≤ 0xFF → b.addrHi = 0 → l ≤ 0xFFFF → b.src.toNat + b.len.toNat ≤ s.cfg.dmemSize →
        s.cfg.dmemSize < b.dst.toNat + (12 + l) → ReportsOnly (.pktBuild d) s b 0x00000203#32)

/-- PKT_VALIDATE sets RESULT to 1 iff the list has at least 4 bytes and its last four, little-endian, are the sum of the
rest mod 2^32; an invalid list is no error, and nothing else changes but ERR and CAUSE (R145, R148). -/
def Obligations.PktValidateChecksTheSum : Prop :=
  ∀ (s : State) (b : Bank), s.bank? s.issuer = some b → b.src.toNat + b.len.toNat ≤ s.cfg.dmemSize →
    let n := b.len.toNat
    let f := s.memBytes b.src.toNat n
    ∃ t, exec .pktValidate s = .next t ∧
      t.bank? s.issuer = some (Bank.Reported { b with
        result := if 4 ≤ n ∧ valueLE (f.drop (n - 4)) = byteSum (f.take (n - 4)) % 2 ^ 32 then 1 else 0 }) ∧
      OnlyBank s.issuer s t

/-! ## All operations -/

/-- Every operation of an existing port takes one step and cannot hang, whatever the state and its operands (R219). -/
def Obligations.EveryOperationCompletes : Prop :=
  ∀ (i : Instr) (s : State) (b : Bank), s.bank? s.issuer = some b → ∃ t, exec i s = .next t

/-- What an operation leaves alone: OP and the operand registers; ACC but for the CRC operations; RESULT for TBL_INIT;
FRAME_LEN, TRUNC and DMEM but for PKT_BUILD; `g.TVALID` and the tables but for the four table operations; every other
port's bank; the configuration and the host's side (R26 to R29, R75). -/
def Obligations.OperationWritesOnlyItsRegisters : Prop :=
  ∀ (i : Instr) (s t : State) (b c : Bank), exec i s = .next t → s.bank? s.issuer = some b →
    t.bank? s.issuer = some c →
      SameOperands b c ∧
      (i ∈ [Instr.tblInit, .pktValidate] ∨ (∃ w, i = .tblRead w) ∨ (∃ d, i = .pktBuild d) → c.acc = b.acc) ∧
      (i = .tblInit → c.result = b.result) ∧
      ((∀ d, i ≠ .pktBuild d) → c.frameLen = b.frameLen ∧ c.trunc = b.trunc ∧ t.dmem = s.dmem) ∧
      (i ∈ [Instr.crcStart, .crcBufS, .pktValidate] ∨ (∃ w, i = .crcWordS w) ∨ (∃ d, i = .pktBuild d) →
        t.tvalid = s.tvalid ∧ t.dtab = s.dtab ∧ t.stateTables = s.stateTables) ∧
      BanksSameBut s.issuer s t ∧
      t = { s with banks := t.banks, dmem := t.dmem, tvalid := t.tvalid, dtab := t.dtab, stateTables := t.stateTables }

/-- Errors are precise: an operation that ends with ERR set has changed nothing but ERR and CAUSE, neither a register nor
DMEM nor the table nor another port (R184). -/
def Obligations.ErrorsArePrecise : Prop :=
  ∀ (i : Instr) (s t : State) (b c : Bank), exec i s = .next t → s.bank? s.issuer = some b →
    t.bank? s.issuer = some c → c.err = true →
      c = { b with err := true, cause := c.cause } ∧ OnlyBank s.issuer s t

/-- ERR and CAUSE describe the last operation: after any operation CAUSE holds a code of R180 with its detail, and ERR is
set iff it is not NONE (R180, R184, R185). -/
def Obligations.ErrAndCauseReportTheOperation : Prop :=
  ∀ (i : Instr) (s t : State) (c : Bank), exec i s = .next t → t.bank? s.issuer = some c →
    c.cause ∈ [0x000#32, 0x102#32, 0x202#32, 0x302#32, 0x103#32, 0x203#32] ∧ (c.err = true ↔ c.cause ≠ 0)

/-- SELF_CHECK cannot occur: no operation leaves code 4 in CAUSE (R146, R186). -/
def Obligations.SelfCheckNeverOccurs : Prop :=
  ∀ (i : Instr) (s t : State) (c : Bank), exec i s = .next t → t.bank? s.issuer = some c →
    c.cause.extractLsb' 0 8 ≠ 4#8

/-! ## The shared table -/

/-- Once built, the table and `g.TVALID` do not change in any step until reset (R33, R64). -/
def Obligations.BuiltTableStaysUntilReset : Prop :=
  ∀ s t : State, step s = .next t → s.tvalid = true → (∀ rest, s.agenda ≠ .reset :: rest) →
    t.tvalid = true ∧ t.dtab = s.dtab

/-- While `g.TVALID = 1`, `g.DTAB[w] = T(w)` for every w: every step keeps it (R33). -/
def Obligations.StepKeepsTheTableLaw : Prop :=
  ∀ s t : State, (s.tvalid = true → ∀ w : Word16, s.dtab[w.toNat]? = some (contribT s.cfg.matrix w)) →
    step s = .next t →
      (t.tvalid = true → ∀ w : Word16, t.dtab[w.toNat]? = some (contribT t.cfg.matrix w))

/-- The table form is the bit-serial form: where `g.TVALID = 1` the two folds are equal, and from any good state the `_S`
and the `_T` operations leave the issuing port's bank the same, ACC and RESULT among it. They differ only in what they do
to `g.TVALID` and the tables (R107). -/
def Obligations.TableFormEqualsDirectForm : Prop :=
  ∀ (s : State) (b : Bank) (i j : Instr), s.Inv → s.bank? s.issuer = some b →
    (s.tvalid = true → ∀ a d, crcT s.cfg.matrix s.dtab a d = crcS s.cfg.matrix a d) ∧
      (((i = .crcBufS ∧ j = .crcBufT) ∨ (∃ w, i = .crcWordS w ∧ j = .crcWordT w)) →
        ∃ t u c, exec i s = .next t ∧ exec j s = .next u ∧ t.bank? s.issuer = some c ∧ u.bank? s.issuer = some c ∧
          u = { t with tvalid := u.tvalid, dtab := u.dtab, stateTables := u.stateTables })

/-- Two ports' operations that write no DMEM give the same state in either order, and the table is built at most once, by
whichever comes first: where the first has built it, the second leaves it as it is (R64). `issuer`, the model's note of
which port ran last (log entry 4), is left aside. -/
def Obligations.TableOperationsCommute : Prop :=
  ∀ (s : State) (p q : Nat) (b c : Bank) (i j : Instr), p ≠ q → s.bank? p = some b → s.bank? q = some c →
    (∀ d, i ≠ .pktBuild d) → (∀ d, j ≠ .pktBuild d) →
      ∃ t1 t2 u1 u2, exec i { s with issuer := p } = .next t1 ∧ exec j { t1 with issuer := q } = .next t2 ∧
        exec j { s with issuer := q } = .next u1 ∧ exec i { u1 with issuer := p } = .next u2 ∧
        ({ t2 with issuer := 0 } : State) = { u2 with issuer := 0 } ∧
        (t1.tvalid = true → t2.tvalid = true ∧ t2.dtab = t1.dtab ∧ t2.stateTables = t1.stateTables) ∧
        (u1.tvalid = true → u2.tvalid = true ∧ u2.dtab = u1.dtab ∧ u2.stateTables = u1.stateTables)

/-! ## Ports -/

/-- A port's bank changes only by a reset or by a register write in that bank: no other port's event disturbs it
(R194, R216). -/
def Obligations.BanksArePrivate : Prop :=
  ∀ (s t : State) (p : Nat), step s = .next t → t.bank? p ≠ s.bank? p →
    (∃ rest, s.agenda = .reset :: rest) ∨
      ∃ k off v, s.NextRequest k (.regWrite off 4 v) ∧ off / 0x100 = p

/-- What an operation does does not depend on another port's bank: with that bank replaced, it gives the same result with
that bank replaced (R216). -/
def Obligations.OperationsIgnoreOtherBanks : Prop :=
  ∀ (i : Instr) (s t : State) (p : Nat) (c : Bank), p ≠ s.issuer → exec i s = .next t →
    exec i (s.setBank p c) = .next (t.setBank p c)

/-! ## The invariant and reset -/

/-- The reset state is a good state. -/
def Obligations.ResetIsGood : Prop := State.reset.Inv

/-- Every step from a good state leads to a good state: the parameters, one bank a port, ERR and CAUSE telling the same,
the table law, the byte tables, DMEM in canonical form and inside its bounds (R8, R20, R24, R25, R33, R34, R50). -/
def Obligations.StepKeepsGoodStates : Prop :=
  ∀ s t : State, s.Inv → step s = .next t → t.Inv

/-- No step changes the configuration (R35). -/
def Obligations.StepKeepsTheConfiguration : Prop :=
  ∀ s t : State, step s = .next t → t.cfg = s.cfg

/-- Reset, at power-on and between two events, puts every port at once into the reset column of R21 with ACC =
`P_CRC_INIT`, and `g.TVALID` to 0, for every configuration (R37, R210). -/
def Obligations.ResetValues : Prop :=
  (∀ (c : Config) (e : Nat) (s : State) (rest : List Turn),
    s = State.resetWith c e ∨ (∃ s0 : State, s0.cfg = c ∧ s0.agenda = .reset :: rest ∧ step s0 = .next s) →
      s.tvalid = false ∧ s.banks.length = c.nPorts ∧
        ∀ p b, s.bank? p = some b →
          b.op = 0 ∧ s.readReg b .status = 0 ∧ b.cause = 0 ∧ b.src = 0 ∧ b.len = 0 ∧ b.dst = 0 ∧ b.cmd = 0 ∧
            b.addrLo = 0 ∧ b.addrHi = 0 ∧ b.decl = 0 ∧ b.result = 0 ∧ b.frameLen = 0 ∧ b.acc = c.crcInit) ∧
    ∃ e, State.reset = State.resetWith Config.device e

/-! ## The transform -/

/-- F is linear in both arguments and is S xor T (R105). -/
def Obligations.StepFunctionIsLinear : Prop :=
  ∀ (m : Vector Row48 32) (s s1 s2 : Word32) (w w1 w2 : Word16),
    stepF m s w = contribS m s ^^^ contribT m w ∧
      stepF m (s1 ^^^ s2) (w1 ^^^ w2) = stepF m s1 w1 ^^^ stepF m s2 w2

/-- The word split: ⌈n/2⌉ words, the k-th made of bytes 2k and 2k+1, low byte first, an odd last byte zero-extended
(R103). -/
def Obligations.WordSplit : Prop :=
  ∀ d : List Byte,
    (dataWords d).length = (d.length + 1) / 2 ∧
      (∀ k, 2 * k + 1 < d.length →
        ((dataWords d)[k]?).map BitVec.toNat = some ((d.getD (2 * k) 0).toNat + 256 * (d.getD (2 * k + 1) 0).toNat)) ∧
      (d.length % 2 = 1 →
        ((dataWords d)[d.length / 2]?).map BitVec.toNat = some (d.getD (d.length - 1) 0).toNat)

/-- The laws of R120, for every matrix: zero maps to zero, an empty list folds nothing, an even first part can be folded
first, the starting value's contribution does not depend on the data, and two lists' difference is the fold of their
bytewise xor. -/
def Obligations.FoldLaws : Prop :=
  ∀ m : Vector Row48 32,
    (stepF m 0 0 = 0 ∧ contribS m 0 = 0 ∧ contribT m 0 = 0) ∧
      (∀ a, crcS m a [] = a) ∧
      (∀ a d e, d.length % 2 = 0 → crcS m a (d ++ e) = crcS m (crcS m a d) e) ∧
      (∀ a b d, crcS m (a ^^^ b) d ^^^ crcS m b d = crcS m a (List.replicate d.length 0)) ∧
      (∀ a d e, d.length = e.length →
        crcS m a d ^^^ crcS m a e = crcS m 0 (List.zipWith (fun x y => x ^^^ y) d e)) ∧
      (∀ table a d, (∀ w : Word16, table[w.toNat]? = some (contribT m w)) → crcT m table a d = crcS m a d)

/-- An odd last byte is folded as if a zero byte followed it (R103, R116). -/
def Obligations.OddByteFoldsAsZeroPadded : Prop :=
  ∀ (m : Vector Row48 32) (a : Word32) (d : List Byte), d.length % 2 = 1 → crcS m a d = crcS m a (d ++ [0])

/-- CRC_START and then CRC_BUF_S or CRC_BUF_T leave in ACC and RESULT `checksum(d) = crcS(P_CRC_INIT, d)` of the buffer,
with no output transform (R108, R109). -/
def Obligations.StartThenFoldIsTheChecksum : Prop :=
  ∀ (s : State) (b : Bank) (i : Instr), s.Inv → s.bank? s.issuer = some b →
    b.src.toNat + b.len.toNat ≤ s.cfg.dmemSize → i ∈ [Instr.crcBufS, .crcBufT] →
      ∃ t u c, exec .crcStart s = .next t ∧ exec i t = .next u ∧ u.bank? s.issuer = some c ∧
        c.acc = crcS s.cfg.matrix s.cfg.crcInit (s.memBytes b.src.toNat b.len.toNat) ∧ c.result = c.acc

/-! ## Frames -/

/-- A built frame validates, for every command byte, address, length and payload of that length (R149). -/
def Obligations.BuiltFrameIsValid : Prop :=
  ∀ (c : Byte) (addr : Word32) (l : Nat) (q : List Byte), l ≤ 0xFFFF → q.length = l →
    validFrame (frame c addr l q) = true

/-- Changing any single byte of a built frame makes it invalid (R149). -/
def Obligations.SingleByteChangeIsDetected : Prop :=
  ∀ (c : Byte) (addr : Word32) (l : Nat) (q : List Byte) (i : Nat) (x : Byte), l ≤ 0xFFFF → q.length = l →
    i < (frame c addr l q).length → (frame c addr l q)[i]? ≠ some x →
      validFrame ((frame c addr l q).set i x) = false

/-- The fields of a frame: 12 + L bytes, 0xA5 first, then the command, the address and the length little-endian, the
payload, and the sum, which never wraps (R81, R82, R83, R144). -/
def Obligations.FrameFields : Prop :=
  ∀ (c : Byte) (addr : Word32) (l : Nat) (q : List Byte), l ≤ 0xFFFF → q.length = l →
    let f := frame c addr l q
    f.length = 12 + l ∧ f[0]? = some 0xA5#8 ∧ f[1]? = some c ∧
      valueLE ((f.drop 2).take 4) = addr.toNat ∧ valueLE ((f.drop 6).take 2) = l ∧ (f.drop 8).take l = q ∧
      valueLE (f.drop (8 + l)) = byteSum (f.take (8 + l)) ∧ byteSum (f.take (8 + l)) ≤ 16713465

/-- A payload no longer than the declared length is padded with zeros to it, a longer one is cut to it, and only the
second is a truncation (R142, R149, R150). -/
def Obligations.PayloadIsFitted : Prop :=
  ∀ (p : List Byte) (l : Nat),
    (p.length ≤ l → fitPayload p l = (p ++ List.replicate (l - p.length) 0, false)) ∧
      (l < p.length → fitPayload p l = (p.take l, true)) ∧ (fitPayload p l).1.length = l

/-! ## Parity, and the changes a sum does not see -/

/-- `parity(v)` is 1 iff an odd number of the bits of v are 1 (R10). -/
def Obligations.ParityCountsTheSetBits : Prop :=
  ∀ (n : Nat) (v : BitVec n), parity v = true ↔ ((List.range n).filter (fun j => v.getLsbD j)).length % 2 = 1

/-- Two changed bytes of a built frame, before its checksum, that cancel in the sum are not detected (R149). -/
def Obligations.CancellingChangesAreNotDetected : Prop :=
  ∀ (c : Byte) (addr : Word32) (l : Nat) (q : List Byte) (i j : Nat) (x y : Byte), l ≤ 0xFFFF → q.length = l →
    i < 8 + l → j < 8 + l → i ≠ j →
      x.toNat + y.toNat = ((frame c addr l q).getD i 0).toNat + ((frame c addr l q).getD j 0).toNat →
        validFrame (((frame c addr l q).set i x).set j y) = true
end

