-- ==== Sys2Proof/Laws/Bits.lean ====
section
/-! SUPPORT. Parity is linear; little-endian byte lists and their values are inverse; the byte sum. -/

namespace Sys2Proof.Machine

/-! ## Parity (R10, R105) -/

theorem foldl_xor_init (f : Nat → Bool) (l : List Nat) (p : Bool) :
    l.foldl (fun q i => q ^^ f i) p = (p ^^ l.foldl (fun q i => q ^^ f i) false) := by
  induction l generalizing p with
  | nil => simp
  | cons i l ih => simp only [List.foldl_cons]; rw [ih, ih (false ^^ f i)]; simp

theorem foldl_xor_xor (f g : Nat → Bool) (l : List Nat) :
    l.foldl (fun q i => q ^^ (f i ^^ g i)) false =
      (l.foldl (fun q i => q ^^ f i) false ^^ l.foldl (fun q i => q ^^ g i) false) := by
  induction l with
  | nil => rfl
  | cons i l ih =>
    simp only [List.foldl_cons]
    rw [foldl_xor_init, foldl_xor_init f, foldl_xor_init g, ih]
    cases f i <;> cases g i <;> simp

/-- The parity of an XOR is the XOR of the parities (R105). -/
theorem parity_xor {n : Nat} (u v : BitVec n) : parity (u ^^^ v) = (parity u ^^ parity v) := by
  simp only [parity, BitVec.getLsbD_xor]
  exact foldl_xor_xor _ _ _

@[simp] theorem parity_zero (n : Nat) : parity (0#n) = false := by
  have h := parity_xor (0#n) (0#n)
  simpa using h

/-! ## Little-endian lists (R12, R52) -/

@[simp] theorem length_bytesLE (v n : Nat) : (bytesLE v n).length = n := by
  induction n generalizing v with
  | zero => rfl
  | succ n ih => simp [bytesLE, ih]

theorem valueLE_bytesLE (v n : Nat) : valueLE (bytesLE v n) = v % 256 ^ n := by
  induction n generalizing v with
  | zero => simp [bytesLE, valueLE, Nat.mod_one]
  | succ n ih =>
    have h8 : (2 : Nat) ^ 8 = 256 := rfl
    simp only [bytesLE, valueLE, ih, BitVec.toNat_ofNat, h8, Nat.pow_succ']
    exact (Nat.mod_mul).symm

theorem valueLE_lt (l : List Byte) : valueLE l < 256 ^ l.length := by
  induction l with
  | nil => simp [valueLE]
  | cons b l ih =>
    have hb := b.isLt
    simp only [valueLE, List.length_cons, Nat.pow_succ']
    omega

theorem bytesLE_valueLE (l : List Byte) : bytesLE (valueLE l) l.length = l := by
  induction l with
  | nil => rfl
  | cons b l ih =>
    have hb := b.isLt
    have h1 : (b.toNat + 256 * valueLE l) / 256 = valueLE l := by omega
    simp only [valueLE, List.length_cons, bytesLE, h1, ih]
    congr 1
    apply BitVec.eq_of_toNat_eq
    simp only [BitVec.toNat_ofNat]
    omega

/-- Byte i of a little-endian list is bits 8i+7 to 8i. -/
theorem getElem?_bytesLE (v n i : Nat) (h : i < n) :
    (bytesLE v n)[i]? = some (BitVec.ofNat 8 (v / 256 ^ i)) := by
  induction n generalizing v i with
  | zero => omega
  | succ n ih =>
    cases i with
    | zero => simp [bytesLE]
    | succ i =>
      have := ih (v / 256) i (by omega)
      simp only [bytesLE, List.getElem?_cons_succ, this, Nat.pow_succ', Nat.div_div_eq_div_mul]

theorem shiftLeft_add_eq_or {a b k : Nat} (h : a < 2 ^ k) : a ||| (b <<< k) = a + b * 2 ^ k := by
  rw [Nat.or_comm, Nat.shiftLeft_eq, Nat.mul_comm, ← Nat.two_pow_add_eq_or_of_lt h, Nat.add_comm]

/-- `LE16` is the value of its two bytes (R12, R52). -/
theorem toNat_le16 (b0 b1 : Byte) : (le16 b0 b1).toNat = valueLE [b0, b1] := by
  have h0 := b0.isLt
  have h1 := b1.isLt
  simp only [le16, BitVec.toNat_or, BitVec.toNat_setWidth, BitVec.toNat_shiftLeft, valueLE]
  rw [Nat.mod_eq_of_lt (a := b0.toNat) (by omega), Nat.mod_eq_of_lt (a := b1.toNat) (by omega),
    Nat.mod_eq_of_lt (a := b1.toNat <<< 8) (by rw [Nat.shiftLeft_eq]; omega), shiftLeft_add_eq_or (by omega)]
  omega

/-- `LE32` is the value of its four bytes (R12, R52). -/
theorem toNat_le32 (b0 b1 b2 b3 : Byte) : (le32 b0 b1 b2 b3).toNat = valueLE [b0, b1, b2, b3] := by
  have h0 := b0.isLt
  have h1 := b1.isLt
  have h2 := b2.isLt
  have h3 := b3.isLt
  have e1 : b0.toNat ||| b1.toNat <<< 8 = b0.toNat + b1.toNat * 2 ^ 8 := shiftLeft_add_eq_or (by omega)
  have e2 : (b0.toNat + b1.toNat * 2 ^ 8) ||| b2.toNat <<< 16 = b0.toNat + b1.toNat * 2 ^ 8 + b2.toNat * 2 ^ 16 :=
    shiftLeft_add_eq_or (by omega)
  have e3 : (b0.toNat + b1.toNat * 2 ^ 8 + b2.toNat * 2 ^ 16) ||| b3.toNat <<< 24 =
      b0.toNat + b1.toNat * 2 ^ 8 + b2.toNat * 2 ^ 16 + b3.toNat * 2 ^ 24 := shiftLeft_add_eq_or (by omega)
  simp only [le32, BitVec.toNat_or, BitVec.toNat_setWidth, BitVec.toNat_shiftLeft, valueLE]
  rw [Nat.mod_eq_of_lt (a := b0.toNat) (by omega), Nat.mod_eq_of_lt (a := b1.toNat) (by omega),
    Nat.mod_eq_of_lt (a := b2.toNat) (by omega), Nat.mod_eq_of_lt (a := b3.toNat) (by omega),
    Nat.mod_eq_of_lt (a := b1.toNat <<< 8) (by rw [Nat.shiftLeft_eq]; omega),
    Nat.mod_eq_of_lt (a := b2.toNat <<< 16) (by rw [Nat.shiftLeft_eq]; omega),
    Nat.mod_eq_of_lt (a := b3.toNat <<< 24) (by rw [Nat.shiftLeft_eq]; omega), e1, e2, e3]
  omega

/-- `LE32` at index k of a list is the value of the four bytes there. -/
theorem toNat_le32At (l : List Byte) (k : Nat) (h : k + 4 ≤ l.length) :
    (le32At l k).toNat = valueLE ((l.drop k).take 4) := by
  have e : (l.drop k).take 4 = [l.getD k 0, l.getD (k + 1) 0, l.getD (k + 2) 0, l.getD (k + 3) 0] := by
    apply List.ext_getElem?
    intro i
    rcases i with _ | _ | _ | _ | i <;>
      simp [List.getD_eq_getElem?_getD] <;>
      rw [List.getElem?_eq_getElem (by omega)] <;> rfl
  rw [e]
  exact toNat_le32 _ _ _ _

/-! ## The byte sum (R12) -/

@[simp] theorem byteSum_nil : byteSum [] = 0 := rfl

@[simp] theorem byteSum_cons (b : Byte) (l : List Byte) : byteSum (b :: l) = b.toNat + byteSum l := by
  simp [byteSum]

@[simp] theorem byteSum_append (l m : List Byte) : byteSum (l ++ m) = byteSum l + byteSum m := by
  simp [byteSum]

theorem byteSum_le (l : List Byte) : byteSum l ≤ 255 * l.length := by
  induction l with
  | nil => simp
  | cons b l ih => have := b.isLt; simp only [byteSum_cons, List.length_cons]; omega

theorem toNat_sum32 (l : List Byte) : (sum32 l).toNat = byteSum l % 2 ^ 32 := by
  simp [sum32]

end Sys2Proof.Machine
end

