-- ==== Sys2Proof/Laws/Frame.lean ====
section
/-! SUPPORT. The shape of a frame: lengths, where each field lies, and what its last four bytes are. -/

namespace Sys2Proof.Machine

@[simp] theorem length_fitPayload (p : List Byte) (l : Nat) : (fitPayload p l).1.length = l := by
  unfold fitPayload; split
  · simp; omega
  · split
    · simp; omega
    · dsimp only; omega

theorem fitPayload_truncated (p : List Byte) (l : Nat) : (fitPayload p l).2 = decide (l < p.length) := by
  unfold fitPayload; split
  · simp; omega
  · split <;> simp <;> omega

variable (c : Byte) (addr : Word32) (l : Nat) (q : List Byte)

@[simp] theorem length_frameHead : (frameHead c addr l q).length = 8 + q.length := by
  simp [frameHead]; omega

@[simp] theorem length_frame : (frame c addr l q).length = 12 + q.length := by
  simp [frame]; omega

theorem frame_eq : frame c addr l q = frameHead c addr l q ++ bytesLE (sum32 (frameHead c addr l q)).toNat 4 := rfl

/-- The last four bytes of a list with four bytes appended. -/
theorem le32At_append {f t : List Byte} (h : t.length = 4) : (le32At (f ++ t) f.length).toNat = valueLE t := by
  rw [toNat_le32At _ _ (by simp [h]), List.drop_left, List.take_of_length_le (by omega)]

/-- The stored checksum of a list whose last four bytes are a 32-bit value. -/
theorem le32At_append_bytesLE (f : List Byte) (v : Word32) : le32At (f ++ bytesLE v.toNat 4) f.length = v := by
  apply BitVec.eq_of_toNat_eq
  rw [le32At_append (by simp), valueLE_bytesLE]
  exact Nat.mod_eq_of_lt v.isLt

/-- A list is valid iff it ends in the four bytes of the sum of the rest (R145). -/
theorem validFrame_append (f t : List Byte) (h : t.length = 4) :
    validFrame (f ++ t) = decide (valueLE t = byteSum f % 2 ^ 32) := by
  have hl : (f ++ t).length - 4 = f.length := by simp [h]
  have h4 : 4 ≤ (f ++ t).length := by simp [h]
  unfold validFrame
  rw [hl, List.take_left]
  simp only [h4, decide_true, Bool.true_and]
  rw [Bool.eq_iff_iff, beq_iff_eq, decide_eq_true_iff, ← BitVec.toNat_inj, le32At_append h, toNat_sum32]

/-- Every list of at least four bytes is a list with four bytes appended. -/
theorem eq_append_last_four {f : List Byte} (h : 4 ≤ f.length) :
    ∃ g t, f = g ++ t ∧ t.length = 4 :=
  ⟨f.take (f.length - 4), f.drop (f.length - 4), (List.take_append_drop _ _).symm, by simp; omega⟩

end Sys2Proof.Machine
end

