-- ==== Sys2Proof/Laws/State.lean ====
section
/-! SUPPORT. What each update of the state and of a bank leaves in each field: later proofs cite these and unfold no
record. -/

namespace Sys2Proof.Machine

variable (s : State) (p : Nat) (b : Bank)

/-! ## `setBank` -/

@[simp] theorem State.setBank_cfg : (s.setBank p b).cfg = s.cfg := rfl
@[simp] theorem State.setBank_banks : (s.setBank p b).banks = s.banks.set p b := rfl
@[simp] theorem State.setBank_tvalid : (s.setBank p b).tvalid = s.tvalid := rfl
@[simp] theorem State.setBank_dtab : (s.setBank p b).dtab = s.dtab := rfl
@[simp] theorem State.setBank_stateTables : (s.setBank p b).stateTables = s.stateTables := rfl
@[simp] theorem State.setBank_dmem : (s.setBank p b).dmem = s.dmem := rfl
@[simp] theorem State.setBank_issuer : (s.setBank p b).issuer = s.issuer := rfl
@[simp] theorem State.setBank_streams : (s.setBank p b).streams = s.streams := rfl
@[simp] theorem State.setBank_agenda : (s.setBank p b).agenda = s.agenda := rfl
@[simp] theorem State.setBank_replies : (s.setBank p b).replies = s.replies := rfl
@[simp] theorem State.setBank_epoch : (s.setBank p b).epoch = s.epoch := rfl

theorem State.bank?_lt {s : State} {p : Nat} {b : Bank} (h : s.bank? p = some b) : p < s.banks.length :=
  (List.getElem?_eq_some_iff.mp h).1

theorem State.bank?_mem {s : State} {p : Nat} {b : Bank} (h : s.bank? p = some b) : b ∈ s.banks :=
  List.mem_of_getElem? h

theorem State.bank?_of_lt {s : State} {p : Nat} (h : p < s.banks.length) : ∃ b, s.bank? p = some b :=
  ⟨s.banks[p], List.getElem?_eq_getElem h⟩

theorem State.bank?_setBank_self (h : p < s.banks.length) : (s.setBank p b).bank? p = some b := by
  simp [State.bank?, h]

theorem State.bank?_setBank_ne {p q : Nat} (h : q ≠ p) : (s.setBank p b).bank? q = s.bank? q := by
  simp [State.bank?, h.symm]

theorem State.setBank_sameBut : BanksSameBut p s (s.setBank p b) :=
  ⟨by simp, fun _ h => s.bank?_setBank_ne b h⟩

theorem State.setBank_onlyBank : OnlyBank p s (s.setBank p b) :=
  ⟨rfl, s.setBank_sameBut p b⟩

theorem State.setBank_bank?_self {s : State} {p : Nat} {b : Bank} (h : s.bank? p = some b) : s.setBank p b = s := by
  have hl := State.bank?_lt h
  have hb : s.banks[p] = b := (List.getElem?_eq_some_iff.mp h).2
  have : s.banks.set p b = s.banks := by rw [← hb]; exact List.set_getElem_self hl
  unfold State.setBank
  rw [this]

theorem State.setBank_comm {p q : Nat} (b c : Bank) (h : p ≠ q) :
    (s.setBank p b).setBank q c = (s.setBank q c).setBank p b := by
  simp only [State.setBank]
  rw [List.set_comm _ _ h]

/-! ## Reset -/

@[simp] theorem length_drawnTable (e : Nat) : (drawnTable e).length = 65536 := by
  unfold drawnTable
  rw [List.length_map, List.length_range]

/-- Reset leaves the memory in canonical form. -/
theorem State.reset_dmem_wf : Memory.wf State.reset.dmem := List.Pairwise.nil

/-! ## `commit`, `raise` and `succeed` -/

@[simp] theorem State.commit_eq : s.commit b = s.setBank s.issuer b := rfl
@[simp] theorem State.raise_eq (e : OpError) : s.raise b e = s.setBank s.issuer (b.raise e) := rfl
@[simp] theorem State.succeed_eq : s.succeed b = s.setBank s.issuer b.ok := rfl

@[simp] theorem Bank.ok_op : b.ok.op = b.op := rfl
@[simp] theorem Bank.ok_err : b.ok.err = false := rfl
@[simp] theorem Bank.ok_trunc : b.ok.trunc = b.trunc := rfl
@[simp] theorem Bank.ok_cause : b.ok.cause = 0 := rfl
@[simp] theorem Bank.ok_src : b.ok.src = b.src := rfl
@[simp] theorem Bank.ok_len : b.ok.len = b.len := rfl
@[simp] theorem Bank.ok_dst : b.ok.dst = b.dst := rfl
@[simp] theorem Bank.ok_cmd : b.ok.cmd = b.cmd := rfl
@[simp] theorem Bank.ok_addrLo : b.ok.addrLo = b.addrLo := rfl
@[simp] theorem Bank.ok_addrHi : b.ok.addrHi = b.addrHi := rfl
@[simp] theorem Bank.ok_decl : b.ok.decl = b.decl := rfl
@[simp] theorem Bank.ok_acc : b.ok.acc = b.acc := rfl
@[simp] theorem Bank.ok_result : b.ok.result = b.result := rfl
@[simp] theorem Bank.ok_frameLen : b.ok.frameLen = b.frameLen := rfl

variable (e : OpError)

@[simp] theorem Bank.raise_op : (b.raise e).op = b.op := rfl
@[simp] theorem Bank.raise_err : (b.raise e).err = true := rfl
@[simp] theorem Bank.raise_trunc : (b.raise e).trunc = b.trunc := rfl
@[simp] theorem Bank.raise_cause : (b.raise e).cause = e.causeWord := rfl
@[simp] theorem Bank.raise_src : (b.raise e).src = b.src := rfl
@[simp] theorem Bank.raise_len : (b.raise e).len = b.len := rfl
@[simp] theorem Bank.raise_dst : (b.raise e).dst = b.dst := rfl
@[simp] theorem Bank.raise_cmd : (b.raise e).cmd = b.cmd := rfl
@[simp] theorem Bank.raise_addrLo : (b.raise e).addrLo = b.addrLo := rfl
@[simp] theorem Bank.raise_addrHi : (b.raise e).addrHi = b.addrHi := rfl
@[simp] theorem Bank.raise_decl : (b.raise e).decl = b.decl := rfl
@[simp] theorem Bank.raise_acc : (b.raise e).acc = b.acc := rfl
@[simp] theorem Bank.raise_result : (b.raise e).result = b.result := rfl
@[simp] theorem Bank.raise_frameLen : (b.raise e).frameLen = b.frameLen := rfl

/-- A bank after a success reports it. -/
theorem Bank.ok_good : b.ok.Good := ⟨List.mem_cons_self, by simp⟩

/-- Every error word but SELF_CHECK's is one CAUSE ever holds, and none is NONE. -/
theorem OpError.causeWord_reported {e : OpError} (h : e ≠ .selfCheck) :
    e.causeWord ∈ reportedCauses ∧ e.causeWord ≠ 0 := by
  rcases e with _ | f | r | _
  · decide
  · cases f <;> decide
  · cases r <;> decide
  · exact absurd rfl h

/-- A bank after any error but SELF_CHECK reports it. -/
theorem Bank.raise_good (h : e ≠ .selfCheck) : (b.raise e).Good :=
  ⟨(OpError.causeWord_reported h).1, fun _ => (OpError.causeWord_reported h).2, fun _ => rfl⟩

/-! ## `memWriteBytes`, `reply` and `issue` -/

variable (a : Nat) (l : List Byte)

@[simp] theorem State.memWriteBytes_cfg : (s.memWriteBytes a l).cfg = s.cfg := rfl
@[simp] theorem State.memWriteBytes_banks : (s.memWriteBytes a l).banks = s.banks := rfl
@[simp] theorem State.memWriteBytes_tvalid : (s.memWriteBytes a l).tvalid = s.tvalid := rfl
@[simp] theorem State.memWriteBytes_dtab : (s.memWriteBytes a l).dtab = s.dtab := rfl
@[simp] theorem State.memWriteBytes_stateTables : (s.memWriteBytes a l).stateTables = s.stateTables := rfl
@[simp] theorem State.memWriteBytes_dmem : (s.memWriteBytes a l).dmem = s.dmem.writeBytes a l := rfl
@[simp] theorem State.memWriteBytes_issuer : (s.memWriteBytes a l).issuer = s.issuer := rfl
@[simp] theorem State.memWriteBytes_streams : (s.memWriteBytes a l).streams = s.streams := rfl
@[simp] theorem State.memWriteBytes_agenda : (s.memWriteBytes a l).agenda = s.agenda := rfl
@[simp] theorem State.memWriteBytes_replies : (s.memWriteBytes a l).replies = s.replies := rfl
@[simp] theorem State.memWriteBytes_epoch : (s.memWriteBytes a l).epoch = s.epoch := rfl
@[simp] theorem State.memWriteBytes_bank? (q : Nat) : (s.memWriteBytes a l).bank? q = s.bank? q := rfl

variable (k : Nat) (v : Word32)

@[simp] theorem State.reply_cfg : (s.reply k v).cfg = s.cfg := rfl
@[simp] theorem State.reply_banks : (s.reply k v).banks = s.banks := rfl
@[simp] theorem State.reply_tvalid : (s.reply k v).tvalid = s.tvalid := rfl
@[simp] theorem State.reply_dtab : (s.reply k v).dtab = s.dtab := rfl
@[simp] theorem State.reply_stateTables : (s.reply k v).stateTables = s.stateTables := rfl
@[simp] theorem State.reply_dmem : (s.reply k v).dmem = s.dmem := rfl
@[simp] theorem State.reply_issuer : (s.reply k v).issuer = s.issuer := rfl
@[simp] theorem State.reply_streams : (s.reply k v).streams = s.streams := rfl
@[simp] theorem State.reply_agenda : (s.reply k v).agenda = s.agenda := rfl
@[simp] theorem State.reply_replies : (s.reply k v).replies = { stream := k, value := v } :: s.replies := rfl
@[simp] theorem State.reply_epoch : (s.reply k v).epoch = s.epoch := rfl

@[simp] theorem State.issue_cfg : (s.issue p b v).cfg = s.cfg := rfl
@[simp] theorem State.issue_banks : (s.issue p b v).banks = s.banks.set p (b.hostWrite .op v) := rfl
@[simp] theorem State.issue_tvalid : (s.issue p b v).tvalid = s.tvalid := rfl
@[simp] theorem State.issue_dtab : (s.issue p b v).dtab = s.dtab := rfl
@[simp] theorem State.issue_stateTables : (s.issue p b v).stateTables = s.stateTables := rfl
@[simp] theorem State.issue_dmem : (s.issue p b v).dmem = s.dmem := rfl
@[simp] theorem State.issue_issuer : (s.issue p b v).issuer = p := rfl
@[simp] theorem State.issue_streams : (s.issue p b v).streams = s.streams := rfl
@[simp] theorem State.issue_agenda : (s.issue p b v).agenda = s.agenda := rfl
@[simp] theorem State.issue_replies : (s.issue p b v).replies = s.replies := rfl
@[simp] theorem State.issue_epoch : (s.issue p b v).epoch = s.epoch := rfl

theorem State.issue_bank? (h : p < s.banks.length) :
    (s.issue p b v).bank? p = some (b.hostWrite .op v) := by
  simp [State.bank?, h]

theorem State.issue_bank?_ne {p q : Nat} (h : q ≠ p) : (s.issue p b v).bank? q = s.bank? q := by
  simp [State.bank?, h.symm]

/-! ## `ensureTable` -/

@[simp] theorem State.ensureTable_cfg : s.ensureTable.cfg = s.cfg := by unfold State.ensureTable; split <;> rfl
@[simp] theorem State.ensureTable_banks : s.ensureTable.banks = s.banks := by unfold State.ensureTable; split <;> rfl
@[simp] theorem State.ensureTable_dmem : s.ensureTable.dmem = s.dmem := by unfold State.ensureTable; split <;> rfl
@[simp] theorem State.ensureTable_issuer : s.ensureTable.issuer = s.issuer := by
  unfold State.ensureTable; split <;> rfl
@[simp] theorem State.ensureTable_streams : s.ensureTable.streams = s.streams := by
  unfold State.ensureTable; split <;> rfl
@[simp] theorem State.ensureTable_agenda : s.ensureTable.agenda = s.agenda := by
  unfold State.ensureTable; split <;> rfl
@[simp] theorem State.ensureTable_replies : s.ensureTable.replies = s.replies := by
  unfold State.ensureTable; split <;> rfl
@[simp] theorem State.ensureTable_epoch : s.ensureTable.epoch = s.epoch := by unfold State.ensureTable; split <;> rfl
@[simp] theorem State.ensureTable_bank? (q : Nat) : s.ensureTable.bank? q = s.bank? q := by simp [State.bank?]

/-- After `EnsureTable` the table is valid (R111). -/
@[simp] theorem State.ensureTable_tvalid : s.ensureTable.tvalid = true := by
  unfold State.ensureTable; split <;> simp_all

/-- Where the table was valid, `EnsureTable` changes nothing (R111). -/
theorem State.ensureTable_of_valid {s : State} (h : s.tvalid = true) : s.ensureTable = s := by
  simp [State.ensureTable, h]

/-- Where it was not, `EnsureTable` builds it (R111). -/
theorem State.ensureTable_of_invalid {s : State} (h : s.tvalid = false) :
    s.ensureTable = { s with tvalid := true, dtab := builtTable s.cfg.matrix,
                             stateTables := builtStateTables s.cfg } := by
  simp [State.ensureTable, h]

end Sys2Proof.Machine
end

