-- ==== Sys2Proof/Laws/Memory.lean ====
section
/-! SUPPORT. DMEM: a read after a write, and that every write keeps the canonical form. -/

namespace Sys2Proof.Machine

/-! ## Reading after writing -/

theorem Memory.find_write (m : Memory) (a c : Nat) (v : Byte) (h : Memory.wf m) :
    (m.write a v).find c = if c = a then some v else m.find c := by
  induction m with
  | nil => simp [Memory.write, Memory.find, eq_comm]
  | cons e rest ih =>
    obtain ⟨k, x⟩ := e
    have hr := ih (List.Pairwise.of_cons h)
    unfold Memory.write
    by_cases h1 : a < k
    · simp only [h1, if_true, Memory.find]
      by_cases hc : c = a
      · simp [hc]
      · simp [hc, Ne.symm hc]
    · by_cases h2 : a = k
      · subst h2
        simp only [lt_irrefl, if_false, if_true, Memory.find]
        by_cases hc : c = a
        · simp [hc]
        · simp [hc, Ne.symm hc]
      · simp only [h1, h2, if_false, Memory.find, hr]
        by_cases hk : k = c
        · subst hk; simp [Ne.symm h2]
        · simp [hk]

theorem Memory.mem_write {m : Memory} {a : Nat} {v : Byte} {e : Host.Cell} (h : e ∈ m.write a v) :
    e = (a, v) ∨ e ∈ m := by
  induction m with
  | nil => simpa [Memory.write] using h
  | cons d rest ih =>
    obtain ⟨k, x⟩ := d
    unfold Memory.write at h
    split at h
    · simpa using h
    · split at h
      · rcases List.mem_cons.mp h with h | h
        · exact .inl h
        · exact .inr (List.mem_cons_of_mem _ h)
      · rcases List.mem_cons.mp h with h | h
        · exact .inr (h ▸ List.mem_cons_self)
        · exact (ih h).imp_right (List.mem_cons_of_mem _)

/-- A write keeps the canonical form. -/
theorem Memory.write_wf {m : Memory} (a : Nat) (v : Byte) (h : Memory.wf m) : Memory.wf (m.write a v) := by
  induction m with
  | nil => simp [Memory.write, Memory.wf]
  | cons e rest ih =>
    obtain ⟨k, x⟩ := e
    obtain ⟨hk, hrest⟩ := List.pairwise_cons.mp h
    unfold Memory.write
    split
    · rename_i hlt
      refine List.pairwise_cons.mpr ⟨?_, h⟩
      intro d hd
      rcases List.mem_cons.mp hd with hd | hd
      · subst hd; exact hlt
      · exact lt_trans hlt (hk d hd)
    · split
      · rename_i _ heq
        subst heq
        exact List.pairwise_cons.mpr ⟨hk, hrest⟩
      · rename_i hlt hne
        refine List.pairwise_cons.mpr ⟨?_, ih hrest⟩
        intro d hd
        rcases Memory.mem_write hd with hd | hd
        · subst hd; exact lt_of_le_of_ne (Nat.le_of_not_lt hlt) (Ne.symm hne)
        · exact hk d hd

/-- Writing a byte list keeps the canonical form. -/
theorem Memory.writeBytes_wf {m : Memory} (a : Nat) (l : List Byte) (h : Memory.wf m) :
    Memory.wf (m.writeBytes a l) := by
  induction l generalizing m a with
  | nil => exact h
  | cons b l ih => exact ih (a + 1) (Memory.write_wf a b h)

theorem Memory.find_writeBytes {m : Memory} (a c : Nat) (l : List Byte) (h : Memory.wf m) :
    (m.writeBytes a l).find c = if a ≤ c ∧ c < a + l.length then l[c - a]? else m.find c := by
  induction l generalizing m a with
  | nil => simp only [Memory.writeBytes, List.length_nil]; rw [if_neg (by omega)]
  | cons b l ih =>
    simp only [Memory.writeBytes]
    rw [ih (a + 1) (Memory.write_wf a b h), Memory.find_write m a c b h]
    by_cases hc : c = a
    · subst hc
      rw [if_neg (by omega), if_pos rfl, if_pos (by simp)]
      simp
    · by_cases hr : a + 1 ≤ c ∧ c < a + 1 + l.length
      · rw [if_pos hr, if_pos (by simp only [List.length_cons]; omega)]
        have : c - a = (c - (a + 1)) + 1 := by omega
        rw [this, List.getElem?_cons_succ]
      · rw [if_neg hr, if_neg hc, if_neg (by simp only [List.length_cons]; omega)]

theorem Memory.mem_writeBytes {m : Memory} {a : Nat} {l : List Byte} {e : Host.Cell}
    (h : e ∈ m.writeBytes a l) : (a ≤ e.1 ∧ e.1 < a + l.length) ∨ e ∈ m := by
  induction l generalizing m a with
  | nil => exact .inr h
  | cons b l ih =>
    rcases ih h with h | h
    · left; simp only [List.length_cons]; omega
    · rcases Memory.mem_write h with h | h
      · left; subst h; simp
      · exact .inr h

/-- Two memories in canonical form that hold the same bytes are the same list. -/
theorem Memory.eq_of_find {m n : Memory} (hm : Memory.wf m) (hn : Memory.wf n) (h : ∀ a, m.find a = n.find a) :
    m = n := by
  have absent : ∀ {l : Memory} {a : Nat}, (∀ e ∈ l, a < e.1) → l.find a = none := by
    intro l a hl
    induction l with
    | nil => rfl
    | cons e rest ih =>
      obtain ⟨k, x⟩ := e
      have hk : a < k := hl (k, x) (by simp)
      simp only [Memory.find]
      rw [if_neg (by omega)]
      exact ih (fun e he => hl e (List.mem_cons_of_mem _ he))
  induction m generalizing n with
  | nil =>
    cases n with
    | nil => rfl
    | cons e rest => have := h e.1; simp [Memory.find] at this
  | cons e rest ih =>
    obtain ⟨k, x⟩ := e
    cases n with
    | nil => have := h k; simp [Memory.find] at this
    | cons d rest' =>
      obtain ⟨j, y⟩ := d
      obtain ⟨hk, hr⟩ := List.pairwise_cons.mp hm
      obtain ⟨hj, hr'⟩ := List.pairwise_cons.mp hn
      have hkj : k = j := by
        rcases Nat.lt_trichotomy k j with hlt | heq | hgt
        · have hh := h k
          simp only [Memory.find, if_true] at hh
          rw [if_neg (by omega), absent (fun e he => lt_trans hlt (hj e he))] at hh
          cases hh
        · exact heq
        · have hh := h j
          simp only [Memory.find, if_true] at hh
          rw [if_neg (by omega), absent (fun e he => lt_trans hgt (hk e he))] at hh
          cases hh
      subst hkj
      have hxy : x = y := by have hh := h k; simpa [Memory.find] using hh
      subst hxy
      rw [ih hr hr' fun a => ?_]
      have hh := h a
      simp only [Memory.find] at hh
      by_cases ha : k = a
      · subst ha
        rw [absent hk, absent hj]
      · rwa [if_neg ha, if_neg ha] at hh

/-! ## Through the state -/

/-- What each address reads as after a byte list is written (R11, R62). -/
theorem State.memByte_memWriteBytes (s : State) (a c : Nat) (l : List Byte) (h : Memory.wf s.dmem) :
    (s.memWriteBytes a l).memByte c =
      if a ≤ c ∧ c < a + l.length then l.getD (c - a) 0 else s.memByte c := by
  simp only [State.memByte, State.memWriteBytes_dmem, State.memWriteBytes_epoch, Memory.find_writeBytes a c l h]
  by_cases hr : a ≤ c ∧ c < a + l.length
  · have hb : c - a < l.length := by omega
    simp [hr, List.getD_eq_getElem?_getD, hb]
  · simp [hr]

@[simp] theorem State.memByte_setBank (s : State) (p : Nat) (b : Bank) (a : Nat) :
    (s.setBank p b).memByte a = s.memByte a := rfl

@[simp] theorem State.memByte_ensureTable (s : State) (a : Nat) : s.ensureTable.memByte a = s.memByte a := by
  simp [State.memByte]

@[simp] theorem State.length_memBytes (s : State) (a n : Nat) : (s.memBytes a n).length = n := by
  simp [State.memBytes]

theorem State.getElem?_memBytes (s : State) (a n i : Nat) (h : i < n) :
    (s.memBytes a n)[i]? = some (s.memByte (a + i)) := by
  simp [State.memBytes, h]

theorem State.memBytes_congr {s t : State} {a n : Nat} (h : ∀ i, i < n → s.memByte (a + i) = t.memByte (a + i)) :
    s.memBytes a n = t.memBytes a n := by
  simp only [State.memBytes]
  exact List.map_congr_left (fun i hi => h i (List.mem_range.mp hi))

@[simp] theorem State.memBytes_setBank (s : State) (p : Nat) (b : Bank) (a n : Nat) :
    (s.setBank p b).memBytes a n = s.memBytes a n := rfl

@[simp] theorem State.memBytes_ensureTable (s : State) (a n : Nat) : s.ensureTable.memBytes a n = s.memBytes a n :=
  State.memBytes_congr fun i _ => s.memByte_ensureTable (a + i)

end Sys2Proof.Machine
end

