-- ==== Sys2Proof/Laws/Transform.lean ====
section
/-! SUPPORT. The CRC transform: its output bits, the word split, the table. -/

namespace Sys2Proof.Machine

variable (m : Vector Row48 32)

/-- Output bit i of F is the parity of the inputs row i selects (R100). -/
theorem getLsbD_stepF (s : Word32) (w : Word16) (i : Nat) (h : i < 32) :
    (stepF m s w).getLsbD i = parity (m[i] &&& (w ++ s)) := by
  simp [stepF, h]

/-- Two words with the same 32 bits are equal. -/
theorem word32_ext {u v : Word32} (h : ∀ i, i < 32 → u.getLsbD i = v.getLsbD i) : u = v :=
  BitVec.eq_of_getLsbD_eq h

/-- The input of F is linear: `{w1 ⊕ w2, s1 ⊕ s2} = {w1, s1} ⊕ {w2, s2}` (R105). -/
theorem append_xor (s1 s2 : Word32) (w1 w2 : Word16) :
    (w1 ^^^ w2) ++ (s1 ^^^ s2) = (w1 ++ s1) ^^^ (w2 ++ s2) :=
  BitVec.xor_append.symm

/-- Masking distributes over XOR. -/
theorem and_xor_row (r u v : Row48) : r &&& (u ^^^ v) = (r &&& u) ^^^ (r &&& v) := by
  ext i
  simp only [BitVec.getElem_and, BitVec.getElem_xor, Bool.and_xor_distrib_left]

/-! ## The word split (R103) -/

theorem length_dataWords (d : List Byte) : (dataWords d).length = (d.length + 1) / 2 := by
  induction d using dataWords.induct with
  | case1 => rfl
  | case2 b => simp [dataWords]
  | case3 b0 b1 d ih => simp only [dataWords, List.length_cons, ih]; omega

theorem dataWords_append {d : List Byte} (e : List Byte) (h : d.length % 2 = 0) :
    dataWords (d ++ e) = dataWords d ++ dataWords e := by
  induction d using dataWords.induct with
  | case1 => rfl
  | case2 b => simp at h
  | case3 b0 b1 d ih =>
    have : d.length % 2 = 0 := by simp only [List.length_cons] at h; omega
    simp only [List.cons_append, dataWords, ih this]

/-! ## The table (R33, R111) -/

theorem getElem?_builtTable (w : Word16) : (builtTable m)[w.toNat]? = some (contribT m w) := by
  have h : w.toNat < 65536 := w.isLt
  unfold builtTable
  rw [List.getElem?_map, List.getElem?_range h, Option.map_some, BitVec.ofNat_toNat, BitVec.setWidth_eq]

@[simp] theorem length_builtTable : (builtTable m).length = 65536 := by
  unfold builtTable
  rw [List.length_map, List.length_range]

theorem tableEntry_of_getElem? {table : List Word32} {w : Word16} {v : Word32} (h : table[w.toNat]? = some v) :
    tableEntry table w = v := by
  simp [tableEntry, List.getD_eq_getElem?_getD, h]

/-- After `EnsureTable` the table is as R111 says, whatever it was before. -/
theorem State.ensureTable_ensured (s : State) : TableEnsured s s.ensureTable := by
  refine ⟨s.ensureTable_tvalid, fun h => ?_, fun h => ?_⟩
  · rw [State.ensureTable_of_valid h]; exact ⟨rfl, rfl⟩
  · have e : s.ensureTable.dtab = builtTable s.cfg.matrix := by rw [State.ensureTable_of_invalid h]
    rw [e]
    exact ⟨length_builtTable s.cfg.matrix, fun w => getElem?_builtTable s.cfg.matrix w⟩

/-- `EnsureTable` touches only `g.TVALID` and the tables (R111). -/
theorem State.ensureTable_only (s : State) :
    s.ensureTable = { s with tvalid := s.ensureTable.tvalid, dtab := s.ensureTable.dtab,
                             stateTables := s.ensureTable.stateTables } := by
  cases h : s.tvalid
  · rw [State.ensureTable_of_invalid h]
  · rw [State.ensureTable_of_valid h]

/-- A table operation's end touches only the issuing port's bank, `g.TVALID` and the tables. -/
theorem State.ensureTable_succeed_only (s : State) (b : Bank) :
    OnlyBankAndTable s.issuer s (s.ensureTable.succeed b) := by
  cases h : s.tvalid
  · rw [State.ensureTable_of_invalid h]; exact ⟨rfl, s.setBank_sameBut s.issuer b.ok⟩
  · rw [State.ensureTable_of_valid h]; exact ⟨rfl, s.setBank_sameBut s.issuer b.ok⟩

/-- `EnsureTable` does not look at the banks. -/
theorem State.ensureTable_setBank (s : State) (p : Nat) (b : Bank) :
    (s.setBank p b).ensureTable = s.ensureTable.setBank p b := by
  cases h : s.tvalid
  · rw [State.ensureTable_of_invalid h, State.ensureTable_of_invalid (s := s.setBank p b) h]; rfl
  · rw [State.ensureTable_of_valid h, State.ensureTable_of_valid (s := s.setBank p b) h]

end Sys2Proof.Machine
end

