-- ==== Sys2Proof/Laws/Ops.lean ====
section
/-! SUPPORT. What each operation does, in closed form, and once for all of them: `exec_cases`. -/

namespace Sys2Proof.Machine

variable {s t : State} {b : Bank}

/-! ## The issuing port -/

theorem State.withIssuer_some (h : s.bank? s.issuer = some b) (f : Bank → State) : s.withIssuer f = .next (f b) := by
  simp [State.withIssuer, h]

theorem State.withIssuer_none (h : s.bank? s.issuer = none) (f : Bank → State) :
    s.withIssuer f = .fault (.noIssuingPort s.issuer) := by
  simp [State.withIssuer, h]

theorem State.withIssuer_next {f : Bank → State} (h : s.withIssuer f = .next t) :
    ∃ b, s.bank? s.issuer = some b ∧ t = f b := by
  cases hb : s.bank? s.issuer with
  | none => rw [State.withIssuer_none hb] at h; cases h
  | some b => rw [State.withIssuer_some hb] at h; cases h; exact ⟨b, rfl, rfl⟩

/-! ## The range check (R56) -/

theorem pastDmem_iff (c : Config) (a n : Nat) : pastDmem c a n = true ↔ c.dmemSize < a + n := by simp [pastDmem]

theorem pastDmem_false_iff (c : Config) (a n : Nat) : pastDmem c a n = false ↔ a + n ≤ c.dmemSize := by
  simp [pastDmem]

/-! ## Operands (R140) -/

/-- The address value fits its field iff ADDR_HI is 0 (R140). -/
theorem Bank.addressFits_iff (b : Bank) : b.addressFits = true ↔ b.addrHi = 0 := by
  have hl := b.addrLo.isLt
  have e : b.address.toNat = b.addrHi.toNat * 2 ^ 32 + b.addrLo.toNat := by
    simp only [Bank.address, BitVec.toNat_append]
    rw [← Nat.shiftLeft_add_eq_or_of_lt hl, Nat.shiftLeft_eq]
  have z : (0 : Word32).toNat = 0 := rfl
  simp only [Bank.addressFits, e, decide_eq_true_iff, ← BitVec.toNat_inj, z]
  omega

theorem Bank.commandFits_iff (b : Bank) : b.commandFits = true ↔ b.cmd.toNat ≤ 0xFF := by simp [Bank.commandFits]

/-- PKT_BUILD meets no error before it reads memory iff the three values fit and both ranges lie in DMEM (R147). -/
theorem buildError_none_iff (c : Config) (b : Bank) (d : Bool) :
    buildError c b d = none ↔
      b.cmd.toNat ≤ 0xFF ∧ b.addrHi = 0 ∧ b.declaredLength d ≤ 0xFFFF ∧
        b.src.toNat + b.len.toNat ≤ c.dmemSize ∧ b.dst.toNat + (12 + b.declaredLength d) ≤ c.dmemSize := by
  rw [← b.addressFits_iff, ← b.commandFits_iff]
  unfold buildError
  cases b.commandFits with
  | false => simp
  | true =>
    cases b.addressFits with
    | false => simp
    | true =>
      by_cases h1 : 0xFFFF < b.declaredLength d
      · simp only [h1, Bool.not_true, Bool.false_eq_true, if_false, if_true, reduceCtorEq, false_iff]; omega
      · by_cases h2 : c.dmemSize < b.src.toNat + b.len.toNat
        · simp only [pastDmem, Bank.srcAddr, Bank.byteCount, h1, h2]; simp; omega
        · by_cases h3 : c.dmemSize < b.dst.toNat + (12 + b.declaredLength d)
          · simp only [pastDmem, Bank.srcAddr, Bank.byteCount, Bank.dstAddr, h1, h2, h3]; simp; omega
          · simp only [pastDmem, Bank.srcAddr, Bank.byteCount, Bank.dstAddr, h1, h2, h3]; simp; omega

theorem buildError_ne_selfCheck {c : Config} {b : Bank} {d : Bool} {e : OpError} (h : buildError c b d = some e) :
    e ≠ .selfCheck := by
  unfold buildError at h
  repeat' split at h
  all_goals first | (cases h; decide) | cases h

theorem length_buildFrame (s : State) (b : Bank) (d : Bool) :
    (buildFrame s b d).length = 12 + b.declaredLength d := by
  simp [buildFrame, buildPayload]

/-! ## Each operation in closed form -/

variable (h : s.bank? s.issuer = some b)
include h

theorem exec_crcStart :
    exec .crcStart s = .next (s.succeed { b with acc := s.cfg.crcInit, result := s.cfg.crcInit }) :=
  State.withIssuer_some h _

theorem exec_crcWordS (w : Word16) :
    exec (.crcWordS w) s =
      .next (s.succeed { b with acc := stepF s.cfg.matrix b.acc w, result := stepF s.cfg.matrix b.acc w }) :=
  State.withIssuer_some h _

theorem exec_crcWordT (w : Word16) :
    exec (.crcWordT w) s =
      .next (s.ensureTable.succeed { b with acc := stepFt s.cfg.matrix s.ensureTable.dtab b.acc w
                                            result := stepFt s.cfg.matrix s.ensureTable.dtab b.acc w }) := by
  rw [← s.ensureTable_cfg]; exact State.withIssuer_some h _

theorem exec_crcBufS (hr : b.src.toNat + b.len.toNat ≤ s.cfg.dmemSize) :
    exec .crcBufS s =
      .next (s.succeed { b with
        acc := crcS s.cfg.matrix b.acc (s.memBytes b.src.toNat b.len.toNat)
        result := crcS s.cfg.matrix b.acc (s.memBytes b.src.toNat b.len.toNat) }) := by
  have hp := (pastDmem_false_iff s.cfg b.srcAddr b.byteCount).mpr hr
  simp only [exec, execCrcBufS, State.withIssuer_some h, hp, Bool.false_eq_true, if_false]
  rfl

theorem exec_crcBufS_range (hr : s.cfg.dmemSize < b.src.toNat + b.len.toNat) :
    exec .crcBufS s = .next (s.raise b (.memRange .read)) := by
  have hp := (pastDmem_iff s.cfg b.srcAddr b.byteCount).mpr hr
  simp only [exec, execCrcBufS, State.withIssuer_some h, hp, if_true]

theorem exec_crcBufT (hr : b.src.toNat + b.len.toNat ≤ s.cfg.dmemSize) :
    exec .crcBufT s =
      .next (s.ensureTable.succeed { b with
        acc := crcT s.cfg.matrix s.ensureTable.dtab b.acc (s.memBytes b.src.toNat b.len.toNat)
        result := crcT s.cfg.matrix s.ensureTable.dtab b.acc (s.memBytes b.src.toNat b.len.toNat) }) := by
  have hp := (pastDmem_false_iff s.cfg b.srcAddr b.byteCount).mpr hr
  simp only [exec, execCrcBufT, State.withIssuer_some h, hp, Bool.false_eq_true, if_false, State.ensureTable_cfg]
  rfl

theorem exec_crcBufT_range (hr : s.cfg.dmemSize < b.src.toNat + b.len.toNat) :
    exec .crcBufT s = .next (s.raise b (.memRange .read)) := by
  have hp := (pastDmem_iff s.cfg b.srcAddr b.byteCount).mpr hr
  simp only [exec, execCrcBufT, State.withIssuer_some h, hp, if_true]

theorem exec_tblInit : exec .tblInit s = .next (s.ensureTable.succeed b) := State.withIssuer_some h _

theorem exec_tblRead (w : Word16) :
    exec (.tblRead w) s = .next (s.ensureTable.succeed { b with result := tableEntry s.ensureTable.dtab w }) :=
  State.withIssuer_some h _

theorem exec_pktBuild_error {d : Bool} {e : OpError} (he : buildError s.cfg b d = some e) :
    exec (.pktBuild d) s = .next (s.raise b e) := by
  simp only [exec, execPktBuild, State.withIssuer_some h, he]

theorem exec_pktBuild {d : Bool} (he : buildError s.cfg b d = none) (hv : validFrame (buildFrame s b d) = true) :
    exec (.pktBuild d) s =
      .next ((s.memWriteBytes b.dst.toNat (buildFrame s b d)).succeed { b with
        frameLen := BitVec.ofNat 32 (12 + b.declaredLength d)
        result := le32At (buildFrame s b d) (8 + b.declaredLength d)
        trunc := b.trunc || (buildPayload s b d).2 }) := by
  simp only [exec, execPktBuild, State.withIssuer_some h, he, hv, Bool.not_true, Bool.false_eq_true, if_false]
  rfl

theorem exec_pktBuild_selfCheck {d : Bool} (he : buildError s.cfg b d = none)
    (hv : validFrame (buildFrame s b d) = false) : exec (.pktBuild d) s = .next (s.raise b .selfCheck) := by
  simp only [exec, execPktBuild, State.withIssuer_some h, he, hv, Bool.not_false, if_true]

theorem exec_pktValidate (hr : b.src.toNat + b.len.toNat ≤ s.cfg.dmemSize) :
    exec .pktValidate s =
      .next (s.succeed { b with
        result := if validFrame (s.memBytes b.src.toNat b.len.toNat) then 1 else 0 }) := by
  have hp := (pastDmem_false_iff s.cfg b.srcAddr b.byteCount).mpr hr
  simp only [exec, execPktValidate, State.withIssuer_some h, hp, Bool.false_eq_true, if_false]
  rfl

theorem exec_pktValidate_range (hr : s.cfg.dmemSize < b.src.toNat + b.len.toNat) :
    exec .pktValidate s = .next (s.raise b (.memRange .read)) := by
  have hp := (pastDmem_iff s.cfg b.srcAddr b.byteCount).mpr hr
  simp only [exec, execPktValidate, State.withIssuer_some h, hp, if_true]

omit h

/-! ## All operations at once -/

/-- An operation of a port that does not exist stops. -/
theorem exec_noBank (i : Instr) (h : s.bank? s.issuer = none) : exec i s = .fault (.noIssuingPort s.issuer) := by
  cases i <;> exact State.withIssuer_none h _

/-- Everything an operation can do. It reports an error and changes nothing else, or it succeeds: it writes registers of
its own bank that are no operand, and before that it may have built the table or, for PKT_BUILD, written a frame. -/
theorem exec_cases {i : Instr} (h : exec i s = .next t) :
    ∃ b, s.bank? s.issuer = some b ∧
      ((∃ e, t = s.raise b e ∧
          (e ≠ .selfCheck ∨ ∃ d, i = .pktBuild d ∧ validFrame (buildFrame s b d) = false)) ∨
        (∃ u c, t = u.succeed c ∧ SameOperands b c ∧ (b.trunc = true → c.trunc = true) ∧
          (u = s ∨ u = s.ensureTable ∨
            ∃ d, i = .pktBuild d ∧ buildError s.cfg b d = none ∧
              u = s.memWriteBytes b.dst.toNat (buildFrame s b d)))) := by
  cases hb : s.bank? s.issuer with
  | none => rw [exec_noBank i hb] at h; cases h
  | some b =>
    refine ⟨b, rfl, ?_⟩
    have same : ∀ {c : Bank}, c.op = b.op → c.src = b.src → c.len = b.len → c.dst = b.dst → c.cmd = b.cmd →
        c.addrLo = b.addrLo → c.addrHi = b.addrHi → c.decl = b.decl → SameOperands b c :=
      fun h1 h2 h3 h4 h5 h6 h7 h8 => ⟨h1, h2, h3, h4, h5, h6, h7, h8⟩
    cases i with
    | crcStart =>
      rw [exec_crcStart hb] at h; cases h
      exact .inr ⟨s, _, rfl, same rfl rfl rfl rfl rfl rfl rfl rfl, id, .inl rfl⟩
    | crcWordS w =>
      rw [exec_crcWordS hb] at h; cases h
      exact .inr ⟨s, _, rfl, same rfl rfl rfl rfl rfl rfl rfl rfl, id, .inl rfl⟩
    | crcWordT w =>
      rw [exec_crcWordT hb] at h; cases h
      exact .inr ⟨s.ensureTable, _, rfl, same rfl rfl rfl rfl rfl rfl rfl rfl, id, .inr (.inl rfl)⟩
    | crcBufS =>
      by_cases hr : b.src.toNat + b.len.toNat ≤ s.cfg.dmemSize
      · rw [exec_crcBufS hb hr] at h; cases h
        exact .inr ⟨s, _, rfl, same rfl rfl rfl rfl rfl rfl rfl rfl, id, .inl rfl⟩
      · rw [exec_crcBufS_range hb (by omega)] at h; cases h
        exact .inl ⟨_, rfl, .inl (by decide)⟩
    | crcBufT =>
      by_cases hr : b.src.toNat + b.len.toNat ≤ s.cfg.dmemSize
      · rw [exec_crcBufT hb hr] at h; cases h
        exact .inr ⟨s.ensureTable, _, rfl, same rfl rfl rfl rfl rfl rfl rfl rfl, id, .inr (.inl rfl)⟩
      · rw [exec_crcBufT_range hb (by omega)] at h; cases h
        exact .inl ⟨_, rfl, .inl (by decide)⟩
    | tblInit =>
      rw [exec_tblInit hb] at h; cases h
      exact .inr ⟨s.ensureTable, _, rfl, same rfl rfl rfl rfl rfl rfl rfl rfl, id, .inr (.inl rfl)⟩
    | tblRead w =>
      rw [exec_tblRead hb] at h; cases h
      exact .inr ⟨s.ensureTable, _, rfl, same rfl rfl rfl rfl rfl rfl rfl rfl, id, .inr (.inl rfl)⟩
    | pktBuild d =>
      cases he : buildError s.cfg b d with
      | some e =>
        rw [exec_pktBuild_error hb he] at h; cases h
        exact .inl ⟨e, rfl, .inl (buildError_ne_selfCheck he)⟩
      | none =>
        cases hv : validFrame (buildFrame s b d) with
        | false =>
          rw [exec_pktBuild_selfCheck hb he hv] at h; cases h
          exact .inl ⟨_, rfl, .inr ⟨d, rfl, hv⟩⟩
        | true =>
          rw [exec_pktBuild hb he hv] at h; cases h
          exact .inr ⟨_, _, rfl, same rfl rfl rfl rfl rfl rfl rfl rfl, by simp +contextual,
            .inr (.inr ⟨d, rfl, he, rfl⟩)⟩
    | pktValidate =>
      by_cases hr : b.src.toNat + b.len.toNat ≤ s.cfg.dmemSize
      · rw [exec_pktValidate hb hr] at h; cases h
        exact .inr ⟨s, _, rfl, same rfl rfl rfl rfl rfl rfl rfl rfl, id, .inl rfl⟩
      · rw [exec_pktValidate_range hb (by omega)] at h; cases h
        exact .inl ⟨_, rfl, .inl (by decide)⟩

/-- An operation leaves the configuration and the host's side as they were (R35). -/
theorem exec_keeps {i : Instr} (h : exec i s = .next t) :
    t.cfg = s.cfg ∧ t.agenda = s.agenda ∧ t.streams = s.streams ∧ t.replies = s.replies ∧ t.epoch = s.epoch ∧
      t.issuer = s.issuer := by
  obtain ⟨b, -, ⟨e, rfl, -⟩ | ⟨u, c, rfl, -, -, rfl | rfl | ⟨d, -, -, rfl⟩⟩⟩ := exec_cases h <;> simp

end Sys2Proof.Machine
end

