-- ==== Sys2Proof/Laws/Access.lean ====
section
/-! SUPPORT. Host accesses: where an offset leads, and everything an event can do (`serve_cases`). -/

namespace Sys2Proof.Machine

variable {s t : State}

/-! ## The register window (R20, R21, R30) -/

theorem RegName.mem_all (r : RegName) : r ∈ RegName.all := by cases r <;> decide

theorem RegName.offset_lt (r : RegName) : r.offset < bankStride := by cases r <;> decide

theorem RegName.at?_offset (r : RegName) : RegName.at? r.offset = some r := by cases r <;> decide

/-- A register stands at an offset iff it is that register's own (R21). -/
theorem RegName.at?_eq_some {off : Nat} {r : RegName} : RegName.at? off = some r ↔ off = r.offset := by
  constructor
  · intro h
    have := List.find?_some h
    exact (beq_iff_eq.mp this).symm
  · rintro rfl
    exact r.at?_offset

theorem portOf_regOffset (p : Nat) (r : RegName) : portOf (regOffset p r) = p := by
  have := r.offset_lt
  simp only [portOf, regOffset, bankStride] at *
  omega

theorem regOffset_mod (p : Nat) (r : RegName) : regOffset p r % bankStride = r.offset := by
  have := r.offset_lt
  simp only [regOffset, bankStride] at *
  omega

theorem regOffset_aligned (p : Nat) (r : RegName) : regAccessOk (regOffset p r) 4 = true := by
  have : r.offset % 4 = 0 := by cases r <;> decide
  have h : (p * 256 + r.offset) % 4 = 0 := by omega
  simp [regAccessOk, regOffset, bankStride, h]

theorem State.regAt_eq_some {off p : Nat} {b : Bank} {r : RegName} :
    s.regAt off = some (p, b, r) ↔
      p = portOf off ∧ p < s.cfg.nPorts ∧ s.bank? p = some b ∧ RegName.at? (off % bankStride) = some r := by
  unfold State.regAt
  by_cases hp : portOf off < s.cfg.nPorts
  · rw [if_pos hp]
    cases hb : s.bank? (portOf off) with
    | none =>
      simp only [reduceCtorEq, false_iff]
      rintro ⟨rfl, -, h, -⟩
      rw [hb] at h; cases h
    | some b' =>
      cases hr : RegName.at? (off % bankStride) with
      | none => simp
      | some r' =>
        constructor
        · intro h; cases h; exact ⟨rfl, hp, hb, rfl⟩
        · rintro ⟨rfl, -, h, h'⟩
          rw [hb] at h; cases h; cases h'; rfl
  · rw [if_neg hp]
    simp only [reduceCtorEq, false_iff]
    rintro ⟨rfl, h, -⟩
    exact hp h

/-- The offset of a register of an existing port leads to it. -/
theorem State.regAt_regOffset {p : Nat} {b : Bank} (r : RegName) (hp : p < s.cfg.nPorts) (hb : s.bank? p = some b) :
    s.regAt (regOffset p r) = some (p, b, r) :=
  State.regAt_eq_some.mpr ⟨(portOf_regOffset p r).symm, hp, hb, by rw [regOffset_mod, r.at?_offset]⟩

/-- An offset that leads to a register is that register's own. -/
theorem State.off_of_regAt {off p : Nat} {b : Bank} {r : RegName} (h : s.regAt off = some (p, b, r)) :
    off = regOffset p r := by
  obtain ⟨hp, -, -, hr⟩ := State.regAt_eq_some.mp h
  have hr := RegName.at?_eq_some.mp hr
  simp only [portOf, regOffset, bankStride] at *
  omega

theorem regAccessOk_width {off width : Nat} (h : regAccessOk off width = true) : width = 4 := by
  simp [regAccessOk] at h
  exact h.1

section

/-! ## Reset as an event (R210, R211), and a host register write (R26) -/

@[simp] theorem State.resetNow_cfg : s.resetNow.cfg = s.cfg := rfl
@[simp] theorem State.resetNow_banks : s.resetNow.banks = List.replicate s.cfg.nPorts (Bank.reset s.cfg) := rfl
@[simp] theorem State.resetNow_tvalid : s.resetNow.tvalid = false := rfl
@[simp] theorem State.resetNow_dtab : s.resetNow.dtab = drawnTable (s.epoch + 1) := rfl
@[simp] theorem State.resetNow_stateTables : s.resetNow.stateTables = none := rfl
@[simp] theorem State.resetNow_dmem : s.resetNow.dmem = [] := rfl
@[simp] theorem State.resetNow_issuer : s.resetNow.issuer = 0 := rfl
@[simp] theorem State.resetNow_streams : s.resetNow.streams = s.streams := rfl
@[simp] theorem State.resetNow_agenda : s.resetNow.agenda = s.agenda := rfl
@[simp] theorem State.resetNow_replies : s.resetNow.replies = s.replies := rfl
@[simp] theorem State.resetNow_epoch : s.resetNow.epoch = s.epoch + 1 := rfl

variable (b : Bank) (r : RegName) (v : Word32)

@[simp] theorem Bank.hostWrite_err : (b.hostWrite r v).err = b.err := by cases r <;> rfl
@[simp] theorem Bank.hostWrite_cause : (b.hostWrite r v).cause = b.cause := by cases r <;> rfl
@[simp] theorem Bank.hostWrite_result : (b.hostWrite r v).result = b.result := by cases r <;> rfl
@[simp] theorem Bank.hostWrite_frameLen : (b.hostWrite r v).frameLen = b.frameLen := by cases r <;> rfl

end

/-! ## Running a word (R112) -/

theorem State.runWord_instr {v : Word32} {i : Instr} (h : decode v = .instr i) : s.runWord v = exec i s := by
  simp [State.runWord, h]

theorem State.runWord_illegal {v : Word32} {b : Bank} (h : decode v = .illegalOp) (hb : s.bank? s.issuer = some b) :
    s.runWord v = .next (s.raise b .illegalOp) := by
  simp [State.runWord, h, State.withIssuer_some hb]

theorem State.runWord_cases {v : Word32} (h : s.runWord v = .next t) :
    (∃ i, decode v = .instr i ∧ exec i s = .next t) ∨
      (decode v = .illegalOp ∧ ∃ b, s.bank? s.issuer = some b ∧ t = s.raise b .illegalOp) := by
  unfold State.runWord at h
  cases hd : decode v with
  | instr i => rw [hd] at h; exact .inl ⟨i, rfl, h⟩
  | illegalOp => rw [hd] at h; exact .inr ⟨rfl, State.withIssuer_next h⟩

/-! ## Each event (R60, R220) -/

/-- A write to a register other than OP of an existing port. -/
theorem State.regWrite_reg {p : Nat} {b : Bank} {r : RegName} (v : Word32) (hp : p < s.cfg.nPorts)
    (hb : s.bank? p = some b) (hr : r ≠ .op) :
    s.regWrite (regOffset p r) 4 v = .next (s.setBank p (b.hostWrite r v)) := by
  unfold State.regWrite
  rw [regOffset_aligned, State.regAt_regOffset r hp hb]
  cases r <;> first | rfl | exact absurd rfl hr

/-- A write to OP of an existing port runs the word (R23). -/
theorem State.regWrite_op {p : Nat} {b : Bank} (v : Word32) (hp : p < s.cfg.nPorts) (hb : s.bank? p = some b) :
    s.regWrite (regOffset p .op) 4 v = (s.issue p b v).runWord v := by
  unfold State.regWrite
  rw [regOffset_aligned, State.regAt_regOffset .op hp hb]
  rfl

/-- A read of a register of an existing port. -/
theorem State.regRead_reg {p : Nat} {b : Bank} (k : Nat) (r : RegName) (hp : p < s.cfg.nPorts)
    (hb : s.bank? p = some b) : s.regRead k (regOffset p r) 4 = .next (s.reply k (s.readReg b r)) := by
  unfold State.regRead
  rw [regOffset_aligned, State.regAt_regOffset r hp hb]
  rfl

/-- Everything an event can do when it has a next state: nothing, a reply, a register write, an operation, or a DMEM
write within DMEM. -/
theorem State.serve_cases {k : Nat} {r : Request} (h : s.serve k r = .next t) :
    t = s ∨ (∃ v, t = s.reply k v) ∨
      (∃ p b reg v, r = .regWrite (regOffset p reg) 4 v ∧ s.bank? p = some b ∧ p < s.cfg.nPorts ∧ reg ≠ .op ∧
        t = s.setBank p (b.hostWrite reg v)) ∨
      (∃ p b v, r = .regWrite (regOffset p .op) 4 v ∧ s.bank? p = some b ∧ p < s.cfg.nPorts ∧
        (s.issue p b v).runWord v = .next t) ∨
      (∃ addr width v, r = .dmemWrite addr width v ∧ dmemWidthOk width = true ∧
        addr + width ≤ s.cfg.dmemSize ∧ t = s.memWrite addr width v) := by
  cases r with
  | regWrite off width v =>
    simp only [State.serve, State.regWrite] at h
    cases hok : regAccessOk off width with
    | false => rw [hok] at h; cases h
    | true =>
      have hw := regAccessOk_width hok
      subst hw
      rw [hok] at h
      cases ha : s.regAt off with
      | none => rw [ha] at h; cases h; exact .inl rfl
      | some x =>
        obtain ⟨p, b, reg⟩ := x
        have hoff := State.off_of_regAt ha
        obtain ⟨-, hp, hb, -⟩ := State.regAt_eq_some.mp ha
        subst hoff
        by_cases hop : reg = .op
        · subst hop
          rw [ha] at h
          exact .inr (.inr (.inr (.inl ⟨p, b, v, rfl, hb, hp, h⟩)))
        · have := State.regWrite_reg v hp hb hop
          unfold State.regWrite at this
          rw [hok] at this
          rw [this] at h
          cases h
          exact .inr (.inr (.inl ⟨p, b, reg, v, rfl, hb, hp, hop, rfl⟩))
  | regRead off width =>
    simp only [State.serve, State.regRead] at h
    split at h
    · cases h
    · split at h
      · cases h; exact .inr (.inl ⟨_, rfl⟩)
      · cases h; exact .inr (.inl ⟨_, rfl⟩)
  | dmemWrite addr width v =>
    simp only [State.serve, State.dmemWrite] at h
    cases hok : dmemWidthOk width with
    | false => rw [hok] at h; cases h
    | true =>
      rw [hok] at h
      cases hr : pastDmem s.cfg addr width with
      | true => rw [hr] at h; cases h
      | false =>
        rw [hr] at h; cases h
        exact .inr (.inr (.inr (.inr ⟨addr, width, v, rfl, hok, (pastDmem_false_iff _ _ _).mp hr, rfl⟩)))
  | dmemRead addr width =>
    simp only [State.serve, State.dmemRead] at h
    split at h
    · cases h
    · split at h
      · cases h
      · cases h; exact .inr (.inl ⟨_, rfl⟩)

/-- An event leaves the configuration and what is still to be served as they were (R35). -/
theorem State.serve_keeps {k : Nat} {r : Request} (h : s.serve k r = .next t) :
    t.cfg = s.cfg ∧ t.agenda = s.agenda ∧ t.streams = s.streams ∧ t.epoch = s.epoch := by
  obtain rfl | ⟨v, rfl⟩ | ⟨p, b, reg, v, -, -, -, -, rfl⟩ | ⟨p, b, v, -, hb, -, hw⟩ | ⟨addr, width, v, -, -, -, rfl⟩ :=
    State.serve_cases h
  · exact ⟨rfl, rfl, rfl, rfl⟩
  · exact ⟨rfl, rfl, rfl, rfl⟩
  · exact ⟨rfl, rfl, rfl, rfl⟩
  · obtain ⟨i, -, he⟩ | ⟨-, c, -, rfl⟩ := State.runWord_cases hw
    · obtain ⟨h1, h2, h3, -, h5, -⟩ := exec_keeps he
      exact ⟨h1, h2, h3, h5⟩
    · exact ⟨rfl, rfl, rfl, rfl⟩
  · exact ⟨rfl, rfl, rfl, rfl⟩

/-! ## Streams and turns (R60, R61) -/

theorem popStream_pushStream (r : Request) (k : Nat) (qs : List (List Request)) :
    ∃ qs' : List (List Request), popStream (pushStream r k qs) k = some (r, qs') ∧ ∀ j : Nat, (qs'[j]?).getD [] = (qs[j]?).getD [] := by
  induction k generalizing qs with
  | zero =>
    cases qs with
    | nil => exact ⟨[[]], rfl, fun j => by cases j <;> simp⟩
    | cons q qs => exact ⟨q :: qs, rfl, fun j => rfl⟩
  | succ k ih =>
    cases qs with
    | nil =>
      obtain ⟨qs', h, he⟩ := ih []
      refine ⟨[] :: qs', by simp [pushStream, popStream, h], fun j => ?_⟩
      cases j with
      | zero => rfl
      | succ j => simpa using he j
    | cons q qs =>
      obtain ⟨qs', h, he⟩ := ih qs
      refine ⟨q :: qs', by simp [pushStream, popStream, h], fun j => ?_⟩
      cases j with
      | zero => rfl
      | succ j => simpa using he j

/-- Popping stream k takes its oldest request and leaves the others (R61). -/
theorem popStream_eq_some {qs qs' : List (List Request)} {k : Nat} {r : Request} :
    popStream qs k = some (r, qs') ↔ ∃ q, qs[k]? = some (r :: q) ∧ qs' = qs.set k q := by
  induction k generalizing qs qs' with
  | zero =>
    cases qs with
    | nil => simp [popStream]
    | cons q qs =>
      cases q with
      | nil => simp [popStream]
      | cons r' q =>
        simp only [popStream, Option.some.injEq, Prod.mk.injEq, List.getElem?_cons_zero, List.cons.injEq,
          List.set_cons_zero]
        constructor
        · rintro ⟨rfl, rfl⟩; exact ⟨q, ⟨rfl, rfl⟩, rfl⟩
        · rintro ⟨q', ⟨rfl, rfl⟩, rfl⟩; exact ⟨rfl, rfl⟩
  | succ k ih =>
    cases qs with
    | nil => simp [popStream]
    | cons q qs =>
      simp only [popStream, Option.map_eq_some_iff, Prod.mk.injEq, Prod.exists, List.getElem?_cons_succ,
        List.set_cons_succ]
      constructor
      · rintro ⟨r', qs'', h, rfl, rfl⟩
        obtain ⟨q', h1, rfl⟩ := ih.mp h
        exact ⟨q', h1, rfl⟩
      · rintro ⟨q', h1, rfl⟩
        exact ⟨r, qs.set k q', ih.mpr ⟨q', h1, rfl⟩, rfl, rfl⟩

/-- Everything a step can be: the machine waits, a turn passes, the block resets, or one request is served. -/
theorem step_cases :
    (s.agenda = [] ∧ step s = .next s) ∨
      (∃ rest, s.agenda = .reset :: rest ∧ step s = .next ({ s with agenda := rest } : State).resetNow) ∨
      (∃ k rest, s.agenda = .serve k :: rest ∧ popStream s.streams k = none ∧
        step s = .next { s with agenda := rest }) ∨
      (∃ k rest r qs, s.agenda = .serve k :: rest ∧ popStream s.streams k = some (r, qs) ∧
        step s = State.serve { s with agenda := rest, streams := qs } k r) := by
  unfold step
  cases ha : s.agenda with
  | nil => exact .inl ⟨rfl, rfl⟩
  | cons x rest =>
    cases x with
    | reset => exact .inr (.inl ⟨rest, rfl, rfl⟩)
    | serve k =>
      simp only [State.turn]
      cases hp : popStream s.streams k with
      | none => exact .inr (.inr (.inl ⟨k, rest, rfl, hp, rfl⟩))
      | some x => exact .inr (.inr (.inr ⟨k, rest, x.1, x.2, rfl, hp, rfl⟩))

end Sys2Proof.Machine
end

