-- ==== Sys2Proof/Laws/Config.lean ====
section
/-! SUPPORT. The command and response codes are distinct, whatever bytes they are (R86, R87). -/

namespace Sys2Proof

theorem Command.index_inj {a b : Command} (h : a.index = b.index) : a = b := by
  revert h; cases a <;> cases b <;> decide

theorem Response.index_inj {a b : Response} (h : a.index = b.index) : a = b := by
  revert h; cases a <;> cases b <;> decide

theorem Config.commandCode_inj {a b : Command} (h : Config.commandCode a = Config.commandCode b) : a = b :=
  Command.index_inj (Config.commandBytes.injective h)

theorem Config.responseCode_inj {a b : Response} (h : Config.responseCode a = Config.responseCode b) : a = b :=
  Response.index_inj (Config.responseBytes.injective h)

/-- The eight command codes are distinct, and so are the eleven response codes (R86, R87). -/
theorem Config.codesDistinct : Config.CodesDistinct :=
  ⟨fun _ _ => Config.commandCode_inj, fun _ _ => Config.responseCode_inj⟩

end Sys2Proof
end

