-- ==== Sys2Proof/Laws/Decode.lean ====
section
/-! SUPPORT. The fields of an operation word as numbers, and when a word matches a row of the opcode table. -/

namespace Sys2Proof

variable (v : Word32)

theorem toNat_fieldOpc : (fieldOpc v).toNat = v.toNat % 256 := by
  simp [fieldOpc, BitVec.extractLsb'_toNat]

theorem toNat_fieldRsv : (fieldRsv v).toNat = v.toNat / 512 % 128 := by
  simp [fieldRsv, BitVec.extractLsb'_toNat, Nat.shiftRight_eq_div_pow]

theorem toNat_fieldImm : (fieldImm v).toNat = v.toNat / 65536 := by
  have := v.isLt
  simp [fieldImm, BitVec.extractLsb'_toNat, Nat.shiftRight_eq_div_pow]
  omega

theorem fieldD_eq_true : fieldD v = true ↔ v.toNat / 256 % 2 = 1 := by
  simp [fieldD, BitVec.getLsbD, Nat.testBit, Nat.shiftRight_eq_div_pow, Nat.and_comm 1, Nat.and_one_is_mod]

theorem fieldD_eq_false : fieldD v = false ↔ v.toNat / 256 % 2 = 0 := by
  rw [← Bool.not_eq_true, fieldD_eq_true]; omega

variable {v}

/-! ## Rows -/

/-- Under the full mask a word is the pattern. -/
theorem hit_full {p : Word32} {f : Word32 → Instr} : (OpRow.mk 0xFFFFFFFF#32 p f).hit v = true ↔ v = p := by
  simp only [OpRow.hit, beq_iff_eq]
  rw [show (0xFFFFFFFF#32 : Word32) = BitVec.allOnes 32 from rfl, BitVec.and_allOnes]

/-- Under the mask 0x0000FFFF the low half of a word is the pattern. -/
theorem hit_low {p : Word32} {f : Word32 → Instr} :
    (OpRow.mk 0x0000FFFF#32 p f).hit v = true ↔ v.toNat % 65536 = p.toNat := by
  simp only [OpRow.hit, beq_iff_eq, ← BitVec.toNat_inj, BitVec.toNat_and]
  rw [show (0x0000FFFF#32 : Word32).toNat = 2 ^ 16 - 1 from rfl, Nat.and_two_pow_sub_one_eq_mod]

/-- Under the mask 0xFFFFFEFF a word is PKT_BUILD's with or without the D flag. -/
theorem hit_build {f : Word32 → Instr} :
    (OpRow.mk 0xFFFFFEFF#32 0x00000010#32 f).hit v = true ↔ v = 0x00000010#32 ∨ v = 0x00000110#32 := by
  simp only [OpRow.hit, beq_iff_eq]
  constructor
  · intro h
    have hm : ∀ i, i < 32 → i ≠ 8 → (0xFFFFFEFF#32 : Word32).getLsbD i = true := by decide
    have hd : ∀ i, i < 32 → i ≠ 8 → (0x00000010#32 : Word32).getLsbD i = (0x00000110#32 : Word32).getLsbD i := by decide
    have hb : ∀ i, i < 32 → i ≠ 8 → v.getLsbD i = (0x00000010#32).getLsbD i := by
      intro i hi h8
      have hi' := congrArg (fun z : Word32 => z.getLsbD i) h
      simpa only [BitVec.getLsbD_and, hm i hi h8, Bool.and_true] using hi'
    cases h8 : v.getLsbD 8 with
    | false =>
      refine .inl (BitVec.eq_of_getLsbD_eq fun i hi => ?_)
      by_cases he : i = 8
      · subst he; exact h8
      · exact hb i hi he
    | true =>
      refine .inr (BitVec.eq_of_getLsbD_eq fun i hi => ?_)
      by_cases he : i = 8
      · subst he; exact h8
      · rw [hb i hi he, hd i hi he]
  · rintro (rfl | rfl) <;> decide

/-! ## The decoder -/

/-- Decoding, with each row's test as a fact about the word as a number. -/
theorem decode_eq (v : Word32) :
    decode v =
      if v.toNat = 1 then .instr .crcStart
      else if v.toNat % 65536 = 2 then .instr (.crcWordS (fieldImm v))
      else if v.toNat % 65536 = 3 then .instr (.crcWordT (fieldImm v))
      else if v.toNat = 4 then .instr .crcBufS
      else if v.toNat = 5 then .instr .crcBufT
      else if v.toNat = 6 then .instr .tblInit
      else if v.toNat % 65536 = 7 then .instr (.tblRead (fieldImm v))
      else if v.toNat = 16 ∨ v.toNat = 272 then .instr (.pktBuild (fieldD v))
      else if v.toNat = 17 then .instr .pktValidate
      else .illegalOp := by
  simp only [decode, opcodeTable, decodeRows, hit_full, hit_low, hit_build, ← BitVec.toNat_inj]
  rfl

/-! ## The encoder's words -/

theorem toNat_opWord (imm : Word16) (d : Bool) (opc : BitVec 8) :
    (opWord imm d opc).toNat = imm.toNat * 65536 + d.toNat * 256 + opc.toNat := by
  have h1 := imm.isLt
  have h2 := opc.isLt
  have h3 := Bool.toNat_le d
  simp only [opWord, BitVec.toNat_ofNat]
  omega

end Sys2Proof
end

