-- ==== Sys2Proof/Laws/PerInstr.lean ====
section
/-! SUPPORT. One statement per operation about its word. -/

namespace Sys2Proof.Laws.RowMatch

/-- The word of the operation matches one row of the opcode table alone, and that row reads the operation back
(R73, R77). -/
def Statement (i : Instr) : Prop :=
  (opcodeTable.filter (fun r => r.hit (encode i))).map (fun r => r.operation (encode i)) = [i]

theorem crcStart : Statement .crcStart := by unfold Statement; decide

/-- The words that carry an immediate: each row is decided by the low half of the word, which the immediate does not
reach. -/
theorem of_immediate {i : Instr} {imm : Word16} {opc : BitVec 8} (row : OpRow) (he : encode i = opWord imm false opc)
    (hr : ∀ x : Word16, opcodeTable.filter (fun r => r.hit (opWord x false opc)) = [row])
    (ho : row.operation (encode i) = i) : Statement i := by
  unfold Statement
  rw [he] at ho ⊢
  rw [hr imm, List.map_cons, List.map_nil, ho]

theorem fieldImm_opWord (imm : Word16) (opc : BitVec 8) : fieldImm (opWord imm false opc) = imm := by
  have := opc.isLt
  apply BitVec.eq_of_toNat_eq
  rw [toNat_fieldImm, toNat_opWord, Bool.toNat_false]
  omega

/-- What a row of the table asks of the number of a word with an immediate. -/
theorem low_opWord (imm : Word16) (opc : BitVec 8) :
    (opWord imm false opc).toNat = imm.toNat * 65536 + opc.toNat := by
  rw [toNat_opWord, Bool.toNat_false]
  omega

theorem filter_crcWordS (x : Word16) :
    opcodeTable.filter (fun r => r.hit (opWord x false 0x02#8)) =
      [⟨0x0000FFFF#32, 0x00000002#32, fun op => .crcWordS (fieldImm op)⟩] := by
  have h : (opWord x false 0x02#8).toNat = x.toNat * 65536 + 2 := low_opWord x 0x02#8
  simp only [opcodeTable, List.filter_cons, hit_full, hit_low, hit_build, ← BitVec.toNat_inj, h, List.filter_nil]
  have e : ∀ n : Nat, n < 65536 → n ≠ 2 → (x.toNat * 65536 + 2 = n) = False := fun n hn hne => eq_false (by omega)
  have m : (x.toNat * 65536 + 2) % 65536 = 2 := by omega
  simp [e, m]

theorem filter_crcWordT (x : Word16) :
    opcodeTable.filter (fun r => r.hit (opWord x false 0x03#8)) =
      [⟨0x0000FFFF#32, 0x00000003#32, fun op => .crcWordT (fieldImm op)⟩] := by
  have h : (opWord x false 0x03#8).toNat = x.toNat * 65536 + 3 := low_opWord x 0x03#8
  simp only [opcodeTable, List.filter_cons, hit_full, hit_low, hit_build, ← BitVec.toNat_inj, h, List.filter_nil]
  have e : ∀ n : Nat, n < 65536 → n ≠ 3 → (x.toNat * 65536 + 3 = n) = False := fun n hn hne => eq_false (by omega)
  have m : (x.toNat * 65536 + 3) % 65536 = 3 := by omega
  simp [e, m]

theorem filter_tblRead (x : Word16) :
    opcodeTable.filter (fun r => r.hit (opWord x false 0x07#8)) =
      [⟨0x0000FFFF#32, 0x00000007#32, fun op => .tblRead (fieldImm op)⟩] := by
  have h : (opWord x false 0x07#8).toNat = x.toNat * 65536 + 7 := low_opWord x 0x07#8
  simp only [opcodeTable, List.filter_cons, hit_full, hit_low, hit_build, ← BitVec.toNat_inj, h, List.filter_nil]
  have e : ∀ n : Nat, n < 65536 → n ≠ 7 → (x.toNat * 65536 + 7 = n) = False := fun n hn hne => eq_false (by omega)
  have m : (x.toNat * 65536 + 7) % 65536 = 7 := by omega
  simp [e, m]

theorem crcWordS (imm : Word16) : Statement (.crcWordS imm) :=
  of_immediate _ rfl filter_crcWordS (congrArg Instr.crcWordS (fieldImm_opWord imm 0x02#8))

theorem crcWordT (imm : Word16) : Statement (.crcWordT imm) :=
  of_immediate _ rfl filter_crcWordT (congrArg Instr.crcWordT (fieldImm_opWord imm 0x03#8))

theorem crcBufS : Statement .crcBufS := by unfold Statement; decide

theorem crcBufT : Statement .crcBufT := by unfold Statement; decide

theorem tblInit : Statement .tblInit := by unfold Statement; decide

theorem tblRead (imm : Word16) : Statement (.tblRead imm) :=
  of_immediate _ rfl filter_tblRead (congrArg Instr.tblRead (fieldImm_opWord imm 0x07#8))

theorem pktBuild (d : Bool) : Statement (.pktBuild d) := by cases d <;> (unfold Statement; decide)

theorem pktValidate : Statement .pktValidate := by unfold Statement; decide

end Sys2Proof.Laws.RowMatch
end

