-- ==== Sys2Proof/Machine/Assembler.lean ====
section
/-! DEFINITION. The host-program statements of R79 and the pseudo-instructions of R80, as the requests they stand for. -/

namespace Sys2Proof.Machine

/-- One statement of a host program for one port (R79). -/
inductive Stmt where
  /-- `WR <REG>, <value>`. -/
  | wr (r : RegName) (v : Word32)
  /-- `RD <REG>`. -/
  | rd (r : RegName)
  /-- `SB <addr>, <byte>`. -/
  | sb (addr : Nat) (v : Byte)
  /-- `SH <addr>, <u16>`. -/
  | sh (addr : Nat) (v : Word16)
  /-- `SW <addr>, <u32>`. -/
  | sw (addr : Nat) (v : Word32)
  /-- An operation's mnemonic: a write of its word to OP. `PKT_BUILD.D` is `.pktBuild true`. -/
  | run (i : Instr)
  deriving DecidableEq, Repr

/-- The bus event of a statement issued through port `p` (R79, R20). -/
def Stmt.request (p : Nat) : Stmt → Request
  | .wr r v => .regWrite (regOffset p r) 4 v
  | .rd r => .regRead (regOffset p r) 4
  | .sb addr v => .dmemWrite addr 1 (v.setWidth 32)
  | .sh addr v => .dmemWrite addr 2 (v.setWidth 32)
  | .sw addr v => .dmemWrite addr 4 v
  | .run i => .regWrite (regOffset p .op) 4 (encode i)

/-- `CHECKSUM.S <src>, <len>` (R80). -/
def pseudoChecksumS (src len : Word32) : List Stmt :=
  [.run .crcStart, .wr .src src, .wr .len len, .run .crcBufS]

/-- `CHECKSUM.T <src>, <len>` (R80). -/
def pseudoChecksumT (src len : Word32) : List Stmt :=
  [.run .crcStart, .wr .src src, .wr .len len, .run .crcBufT]

/-- `BUILD <cmd>, <addr>, <src>, <len>, <dst>` (R80). -/
def pseudoBuild (cmd addr src len dst : Word32) : List Stmt :=
  [.wr .cmd cmd, .wr .addrLo addr, .wr .addrHi 0, .wr .src src, .wr .len len, .wr .dst dst, .run (.pktBuild false)]

/-- `BUILD.D <cmd>, <addr>, <src>, <len>, <dst>, <decl>` (R80). -/
def pseudoBuildD (cmd addr src len dst decl : Word32) : List Stmt :=
  [.wr .decl decl, .wr .cmd cmd, .wr .addrLo addr, .wr .addrHi 0, .wr .src src, .wr .len len, .wr .dst dst,
    .run (.pktBuild true)]

/-- `VALIDATE <src>, <len>` (R80). -/
def pseudoValidate (src len : Word32) : List Stmt :=
  [.wr .src src, .wr .len len, .run .pktValidate]

/-- `s` with a host program as the next events, issued in order by port `p` to its own bank (R61). -/
def State.withProgram (s : State) (p : Nat) (prog : List Stmt) : State :=
  { s with
    agenda := prog.map (fun _ => .serve p) ++ s.agenda
    streams := (prog.map (Stmt.request p)).foldr (fun r qs => pushStream r p qs) s.streams }

end Sys2Proof.Machine
end

