-- ==== Sys2Proof/Tests/Slice0.lean ====
section
/-! SUPPORT. Tests against the spec's own words and vectors, and a witness for each statement that has hypotheses.

Expected results come from spec/30_encoding.md (words) and spec/95_test_vectors.md (values); the vector's number stands in
each docstring. -/

namespace Sys2Proof.Machine.Tests

open Sys2Proof Sys2Proof.Machine

/-! ## The reference configuration of spec/95_test_vectors.md section 2 -/

/-- The 32 rows of EX1. -/
def ex1 : Vector Row48 32 :=
  #v[0x04D1000104D1#48, 0x09A2000209A2#48, 0x134400041344#48, 0x268800082688#48,
     0x4D1000104D10#48, 0x9A2000209A20#48, 0x309100403091#48, 0x612200806122#48,
     0xC2450100C245#48, 0x805A0200805A#48, 0x046404000464#48, 0x08C8080008C8#48,
     0x119110001191#48, 0x232320002323#48, 0x464640004646#48, 0x8C8C80008C8C#48,
     0x1DC900001DC9#48, 0x3B9300003B93#48, 0x772600007726#48, 0xEE4D0000EE4D#48,
     0xD84B0000D84B#48, 0xB4460000B446#48, 0x6C5C00006C5C#48, 0xD8B80000D8B8#48,
     0xB5A10000B5A1#48, 0x6F9200006F92#48, 0xDF240000DF24#48, 0xBA990000BA99#48,
     0x71E3000071E3#48, 0xE3C60000E3C6#48, 0xC35C0000C35C#48, 0x826800008268#48]

/-- Two ports, 0x40000 bytes of DMEM, DIRECT, `P_CRC_INIT` = 0xFFFFFFFF. -/
def config : Config where
  matrix := ex1
  crcInit := 0xFFFFFFFF
  nPorts := 2
  dmemSize := 0x40000
  stateForm := .direct

/-- A bank as reset leaves it. -/
def bank : Bank := Bank.reset config

/-- The machine with bank `b` for port 0 and the bytes `l` written at `a`. -/
def machine (b : Bank) (a : Nat := 0) (l : List Byte := []) : State :=
  { State.resetWith config 0 with banks := [b, bank], dmem := Memory.writeBytes [] a l }

/-- The state after one event, where it has one. -/
def after? : Host.Outcome State Fault Refusal → Option State
  | .next t => some t
  | _ => none

/-- The state after port 0's operation word `v`. -/
def runOp (s : State) (v : Word32) : Option State := after? (s.serve 0 (.regWrite 0x000 4 v))

/-- ACC, RESULT, CAUSE and STATUS of port 0. -/
def view (s : State) : List Word32 :=
  match s.bank? 0 with
  | some b => [b.acc, b.result, b.cause, s.readReg b .status]
  | none => []

/-- FRAME_LEN, RESULT, CAUSE and STATUS of port 0, and `n` bytes at `a`. -/
def built (a n : Nat) (s : State) : List Word32 × List Byte :=
  match s.bank? 0 with
  | some b => ([b.frameLen, b.result, b.cause, s.readReg b .status], s.memBytes a n)
  | none => ([], [])

/-! ## Words written out from R71 and R72, one for each operation -/

/-- CRC_START: IMM 0, RSV 0, D 0, OPC 0x01. -/
theorem test_decode_crcStart : decode 0b00000000000000000000000000000001#32 = .instr .crcStart := by decide

/-- CRC_WORD_S 0x0201: IMM 0000001000000001, OPC 00000010. -/
theorem test_decode_crcWordS : decode 0b00000010000000010000000000000010#32 = .instr (.crcWordS 0x0201#16) := by decide

/-- CRC_WORD_T 0x7654: IMM 0111011001010100, OPC 00000011. -/
theorem test_decode_crcWordT : decode 0b01110110010101000000000000000011#32 = .instr (.crcWordT 0x7654#16) := by decide

/-- CRC_BUF_S: OPC 00000100. -/
theorem test_decode_crcBufS : decode 0b00000000000000000000000000000100#32 = .instr .crcBufS := by decide

/-- CRC_BUF_T: OPC 00000101. -/
theorem test_decode_crcBufT : decode 0b00000000000000000000000000000101#32 = .instr .crcBufT := by decide

/-- TBL_INIT: OPC 00000110. -/
theorem test_decode_tblInit : decode 0b00000000000000000000000000000110#32 = .instr .tblInit := by decide

/-- TBL_READ 0x8000: IMM 1000000000000000, OPC 00000111. -/
theorem test_decode_tblRead : decode 0b10000000000000000000000000000111#32 = .instr (.tblRead 0x8000#16) := by decide

/-- PKT_BUILD: OPC 00010000, D 0. -/
theorem test_decode_pktBuild : decode 0b00000000000000000000000000010000#32 = .instr (.pktBuild false) := by decide

/-- PKT_BUILD.D: OPC 00010000, D (bit 8) 1. -/
theorem test_decode_pktBuildD : decode 0b00000000000000000000000100010000#32 = .instr (.pktBuild true) := by decide

/-- PKT_VALIDATE: OPC 00010001. -/
theorem test_decode_pktValidate : decode 0b00000000000000000000000000010001#32 = .instr .pktValidate := by decide

/-- The words of O14 to O18 and X13, and the OPC values beside the legal ones, decode to ILLEGAL_OP (R76). -/
theorem test_decode_illegal :
    [0x00000000#32, 0x00000101#32, 0x00010001#32, 0x00000202#32, 0x00000108#32, 0x00010010#32, 0x00000008#32,
        0x0000000F#32, 0x00000012#32, 0x000000FF#32, 0x00008002#32, 0x00000111#32, 0x80000011#32].map decode =
      List.replicate 13 .illegalOp := by
  decide

/-- The encoder gives the words of R72. -/
theorem test_encode :
    [Instr.crcStart, .crcWordS 0x0201, .crcWordT 0x7654, .crcBufS, .crcBufT, .tblInit, .tblRead 0x8000,
        .pktBuild false, .pktBuild true, .pktValidate].map encode =
      [0x00000001, 0x02010002, 0x76540003, 0x00000004, 0x00000005, 0x00000006, 0x80000007, 0x00000010, 0x00000110,
        0x00000011] := by
  decide

/-- The host's bit numbering is the word's own. -/
theorem test_decodeTableWord :
    decodeTableWord 32 0x00000110 = some (.pktBuild true) ∧ decodeTableWord 32 0 = none ∧
      decodeTableWord 8 0x05 = some .crcBufT := by
  decide

/-! ## Smoke tests of WellFormed: each check refuses an ill-formed access -/

/-- A register access of 1, 2 or 8 bytes, and one at an address not a multiple of 4, is ill formed (R31). -/
theorem test_illFormed_register :
    ∀ r ∈ [Request.regWrite 0x0C 1 0, .regWrite 0x0C 2 0, .regRead 0x0C 8, .regWrite 0x0D 4 0, .regRead 0x0E 4],
      r.wellFormed = false ∧ after? ((machine bank).serve 0 r) = none := by
  decide +kernel

/-- A DMEM access of 0, 3 or 8 bytes is ill formed (R54). -/
theorem test_illFormed_dmem :
    ∀ r ∈ [Request.dmemWrite 0x100 3 0, .dmemRead 0x100 0, .dmemRead 0x100 8],
      r.wellFormed = false ∧ after? ((machine bank).serve 0 r) = none := by
  decide +kernel

/-- A well-formed DMEM access that reaches `P_DMEM_SIZE` has no step; one that ends there has (R54). -/
theorem test_dmem_edge :
    after? ((machine bank).serve 0 (.dmemRead 0x3FFFD 4)) = none ∧
      after? ((machine bank).serve 0 (.dmemRead 0x3FFFC 4)) ≠ none := by
  decide +kernel

/-! ## The transform under EX1 -/

/-- E2, E4, E6, E7, E8: `F` and `S`. -/
theorem test_stepF :
    [stepF ex1 0xFFFFFFFF 0, stepF ex1 0xFFFFFFFF 0x0201, stepF ex1 0x12345678 0x1234, contribS ex1 1,
        contribS ex1 0x80000000] =
      [0xBE26ED00, 0x4933BD6D, 0x2D7D97B4, 0x191B3141, 0x00008000] := by
  decide +kernel

/-- E11, E13, E14, E18: `T`. -/
theorem test_contribT :
    [contribT ex1 0x0001, contribT ex1 0x0080, contribT ex1 0x8000, contribT ex1 0x3210] =
      [0x191B3141, 0x3B83984B, 0xEDB88320, 0x821543D1] := by
  decide +kernel

/-! ## Operations -/

/-- O1. -/
theorem test_crcStart_O1 :
    (runOp (machine { bank with acc := 0x12345678 }) 0x00000001#32).map view =
      some [0xFFFFFFFF, 0xFFFFFFFF, 0, 0] := by
  decide +kernel

/-- O19: a success clears the error before it. -/
theorem test_crcStart_O19 :
    (runOp (machine { bank with err := true, cause := 1 }) 0x00000001#32).map view =
      some [0xFFFFFFFF, 0xFFFFFFFF, 0, 0] := by
  decide +kernel

/-- O2. -/
theorem test_crcWordS_O2 :
    (runOp (machine bank) 0x02010002#32).map view = some [0x4933BD6D, 0x4933BD6D, 0, 0] := by
  decide +kernel

/-- O3. -/
theorem test_crcWordT_O3 :
    (runOp (machine { bank with acc := 0 }) 0x02010003#32).map view = some [0xF715506D, 0xF715506D, 0, 4] := by
  decide +kernel

/-- O4. -/
theorem test_crcBufS_O4 :
    (runOp (machine { bank with src := 0x100, len := 3 } 0x100 [1, 2, 3]) 0x00000004#32).map view =
      some [0x4EAEC02B, 0x4EAEC02B, 0, 0] := by
  decide +kernel

/-- O10 and O12: the range is checked exactly, and an empty range may start at `P_DMEM_SIZE`. -/
theorem test_crcBufS_O10_O12 :
    (runOp (machine { bank with src := 0x3FFFF, len := 2 }) 0x00000004#32).map view =
        some [0xFFFFFFFF, 0, 0x103, 1] ∧
      (runOp (machine { bank with src := 0x40000, len := 0 }) 0x00000004#32).map view =
        some [0xFFFFFFFF, 0xFFFFFFFF, 0, 0] := by
  decide +kernel

/-- O5. -/
theorem test_crcBufT_O5 :
    (runOp (machine { bank with src := 0x100, len := 3 } 0x100 [1, 2, 3]) 0x00000005#32).map view =
      some [0x4EAEC02B, 0x4EAEC02B, 0, 4] := by
  decide +kernel

/-- O11: SRC + LEN = 2^32 does not wrap, and the table stays unbuilt. -/
theorem test_crcBufT_O11 :
    (runOp (machine { bank with src := 0xFFFFFFFF, len := 1 }) 0x00000005#32).map view =
      some [0xFFFFFFFF, 0, 0x103, 1] := by
  decide +kernel

/-- O6. -/
theorem test_tblInit_O6 :
    (runOp (machine { bank with acc := 7, result := 9 }) 0x00000006#32).map view = some [7, 9, 0, 4] := by
  decide +kernel

/-- E17, as TBL_READ 0x1234. -/
theorem test_tblRead_E17 :
    (runOp (machine { bank with acc := 7 }) 0x12340007#32).map view = some [7, 0x489382BF, 0, 4] := by
  decide +kernel

/-- PB4: truncation by DECL. -/
theorem test_pktBuild_PB4 :
    (runOp (machine { bank with cmd := 0x05, addrLo := 0x12345678, src := 0x100, len := 4, decl := 2, dst := 0x200 }
        0x100 [1, 2, 3, 4]) 0x00000110#32).map (built 0x200 14) =
      some ([14, 0x1C3, 0, 2], [0xA5, 0x05, 0x78, 0x56, 0x34, 0x12, 0x02, 0x00, 1, 2, 0xC3, 0x01, 0, 0]) := by
  decide +kernel

/-- X14: the payload is read before the frame is written over it. -/
theorem test_pktBuild_X14 :
    (runOp (machine { bank with cmd := 0x21, addrLo := 0x00010000, src := 0x200, len := 3, dst := 0x200 }
        0x200 [1, 2, 3]) 0x00000010#32).map (built 0x200 15) =
      some ([15, 0xD0, 0, 0], [0xA5, 0x21, 0, 0, 1, 0, 3, 0, 1, 2, 3, 0xD0, 0, 0, 0]) := by
  decide +kernel

/-- X8: the length error comes before the range error. -/
theorem test_pktBuild_X8 :
    (runOp (machine { bank with cmd := 0x21, decl := 0x10000, src := 0x3FFFF, len := 5 }) 0x00000110#32).map view =
      some [0xFFFFFFFF, 0, 0x302, 1] := by
  decide +kernel

/-- V4: any list that ends in its own sum is valid. -/
theorem test_pktValidate_V4 :
    (runOp (machine { bank with src := 0x100, len := 7 } 0x100 [1, 2, 3, 6, 0, 0, 0]) 0x00000011#32).map view =
      some [0xFFFFFFFF, 1, 0, 0] := by
  decide +kernel

/-- V9: a changed checksum byte. -/
theorem test_pktValidate_V9 :
    (runOp (machine { bank with src := 0x100, len := 15, result := 5 } 0x100
        [0xA5, 0x21, 0, 0, 1, 0, 3, 0, 1, 2, 3, 0xD1, 0, 0, 0]) 0x00000011#32).map view =
      some [0xFFFFFFFF, 0, 0, 0] := by
  decide +kernel

/-- O14: the word is stored and reported. -/
theorem test_illegalOp_O14 :
    ((runOp (machine { bank with op := 1 }) 0x00000000#32).bind (fun s => s.bank? 0)).map
        (fun b => (b.op, b.err, b.cause)) = some (0, true, 1) := by
  decide +kernel

/-! ## Host accesses and the order of events -/

/-- P1 step 1: a 4-byte write is little-endian, and a 2-byte one writes the low half. -/
theorem test_dmemWrite_P1 :
    (after? ((machine bank).serve 0 (.dmemWrite 0x100 4 0x76543210))).map (fun s => s.memBytes 0x100 4) =
        some [0x10, 0x32, 0x54, 0x76] ∧
      (after? ((machine bank).serve 0 (.dmemWrite 0x304 2 0x0605))).map (fun s => s.memBytes 0x304 2) =
        some [0x05, 0x06] := by
  decide +kernel

/-- P2 step 11: a write of 2 to STATUS clears TRUNC (R24); a write of 0xFFFFFFFD does not. -/
theorem test_statusWrite_P2 :
    (after? ((machine { bank with trunc := true }).serve 0 (.regWrite 0x004 4 2))).map view =
        some [0xFFFFFFFF, 0, 0, 0] ∧
      (after? ((machine { bank with trunc := true }).serve 0 (.regWrite 0x004 4 0xFFFFFFFD))).map view =
        some [0xFFFFFFFF, 0, 0, 2] := by
  decide +kernel

/-- The host's way in: the word placed by `withFetchWord` is what the very next step runs. -/
theorem test_withFetchWord :
    (after? (step ((machine { bank with acc := 0 }).withFetchWord 32 0x00000001))).map view =
      some [0xFFFFFFFF, 0xFFFFFFFF, 0, 0] := by
  decide +kernel

/-- From reset, with nothing placed, the CPE waits (R22). -/
theorem test_reset_waits : step State.reset = .next State.reset := rfl

/-- R80: the requests of VALIDATE through port 1. -/
theorem test_pseudoValidate :
    (pseudoValidate 0x400 16).map (Stmt.request 1) =
      [.regWrite 0x10C 4 0x400, .regWrite 0x110 4 16, .regWrite 0x100 4 0x00000011] := by
  decide

/-! ## Witnesses: for each statement with hypotheses, a state and operands that meet all of them

Where a statement has several clauses, there is a witness for each, at a boundary of its range. -/

/-- Every test machine whose port 0 has a good bank, with its bytes inside DMEM, is a good state. -/
theorem machine_inv {b : Bank} (a : Nat) (l : List Byte) (hb : b.Good) (hl : a + l.length ≤ 0x40000) :
    (machine b a l).Inv := by
  refine ⟨(by decide : config.wf), rfl, ?_, fun h => Bool.noConfusion h, length_drawnTable 0, rfl, ?_, ?_⟩
  · intro c hc
    rcases List.mem_cons.mp hc with rfl | hc
    · exact hb
    · rcases List.mem_cons.mp hc with rfl | hc
      · exact ⟨by decide, by decide⟩
      · exact absurd hc List.not_mem_nil
  · exact Memory.writeBytes_wf a l List.Pairwise.nil
  · intro c hc
    rcases Memory.mem_writeBytes hc with h | h
    · exact Nat.lt_of_lt_of_le h.2 hl
    · exact absurd h List.not_mem_nil

/-- A machine whose next event is the request `r`, and the one after it a reset. -/
def waiting (b : Bank) (r : Request) : State :=
  { machine b with agenda := [.serve 0, .reset], streams := [[r]] }

theorem waiting_inv {b : Bank} (r : Request) (hb : b.Good) : (waiting b r).Inv := by
  have h := machine_inv (b := b) 0 [] hb (by decide)
  exact ⟨h.config_wf, h.bank_count, h.banks_good, h.table_built, h.table_length, h.state_tables, h.dmem_wf,
    h.dmem_inside⟩

/-- A good state in which the table has been built. -/
theorem ensured_inv {b : Bank} (hb : b.Good) : (machine b).ensureTable.Inv := by
  have h := machine_inv (b := b) 0 [] hb (by decide)
  have e : (machine b).ensureTable =
      { machine b with tvalid := true, dtab := builtTable ex1, stateTables := none } :=
    State.ensureTable_of_invalid rfl
  rw [e]
  exact ⟨h.config_wf, h.bank_count, h.banks_good, fun _ => getElem?_builtTable ex1, length_builtTable ex1, rfl, h.dmem_wf,
    h.dmem_inside⟩

theorem bank_good : bank.Good := ⟨by decide, by decide⟩

theorem machine_bank0 (b : Bank) (a : Nat) (l : List Byte) : (machine b a l).bank? (machine b a l).issuer = some b :=
  rfl

theorem witness_DecodeOfEncode :
    ∀ i ∈ [Instr.crcWordS 0xFFFF, .crcWordT 0, .tblRead 0x8000, .pktBuild true, .pktValidate],
      i.wellFormed = true := by
  decide

theorem witness_EncodeOfDecode : decode 0xFFFF0002#32 = .instr (.crcWordS 0xFFFF#16) := by decide

/-- One word for each ground R76 lists, at the edge of its range, and legal words beside them. -/
theorem witness_LegalWordMatchesExactlyOneRow :
    (IllegalFields 0x00000000#32 ∧ IllegalFields 0x00000008#32 ∧ IllegalFields 0x00000012#32 ∧
        IllegalFields 0x00000202#32 ∧ IllegalFields 0x00008010#32 ∧ IllegalFields 0x00000101#32 ∧
        IllegalFields 0x00010001#32 ∧ IllegalFields 0x80000110#32) ∧
      ¬ IllegalFields 0x00000001#32 ∧ ¬ IllegalFields 0xFFFF0007#32 ∧ ¬ IllegalFields 0x00000110#32 ∧
        ¬ IllegalFields 0x00000011#32 := by
  unfold IllegalFields
  exact ⟨⟨by decide, by decide, by decide, by decide, by decide, by decide, by decide, by decide⟩, by decide, by decide,
    by decide, by decide⟩

theorem witness_IllegalWordIsReported : (machine bank).HasPort 1 bank ∧ IllegalFields 0x00000000#32 := by
  refine ⟨⟨by decide, rfl⟩, ?_⟩
  unfold IllegalFields
  decide

theorem witness_StepServesThePickedRequest :
    (waiting bank (.regRead 0 4)).agenda = .serve 0 :: [.reset] ∧
      (waiting bank (.regRead 0 4)).streams[0]? = some (.regRead 0 4 :: []) := ⟨rfl, rfl⟩

theorem witness_StepRunsTheDecodedOperation :
    let s := waiting bank (.regWrite (regOffset 0 .op) 4 0x00000001)
    s.agenda = .serve 0 :: [.reset] ∧ s.streams[0]? = some (.regWrite (regOffset 0 .op) 4 0x00000001 :: []) ∧
      s.HasPort 0 bank ∧ decode 0x00000001 = .instr .crcStart :=
  ⟨rfl, rfl, ⟨by decide, rfl⟩, by decide⟩

/-- Two requesters' events mixed, the last requester among them, each access at the edge of what has a step. -/
theorem witness_EveryInterleavingIsServed :
    (machine bank).Inv ∧
      ∀ x ∈ [(0, Request.regRead 0 4), (2, .dmemWrite 0x3FFFF 1 5), (0, .regWrite 0x100 4 0), (2, .dmemRead 0x3FFFC 4)],
        x.1 < 3 ∧ ¬ x.2.HasNoStep (machine bank).cfg := by
  refine ⟨machine_inv 0 [] bank_good (by decide), ?_⟩
  simp only [List.forall_mem_cons, List.not_mem_nil, false_implies, implies_true, and_true]
  unfold Request.HasNoStep
  decide

/-- The first clause: a step that serves, one that passes a silent requester, one that waits and a reset. -/
theorem witness_IssueOrderIsKept :
    (∃ t, step (waiting bank (.regRead 0 4)) = .next t) ∧
      (∃ t, step { machine bank with agenda := [.serve 1], streams := [[.regRead 0 4], []] } = .next t) ∧
      (∃ t, step (machine bank) = .next t) ∧ ∃ t, step { machine bank with agenda := [.reset] } = .next t :=
  ⟨⟨_, rfl⟩, ⟨_, rfl⟩, ⟨_, rfl⟩, ⟨_, rfl⟩⟩

/-- Each form of access that has no step, at the edge of its range. -/
theorem witness_OnlyMalformedAccessHasNoStep :
    (machine bank).Inv ∧ Request.HasNoStep config (.regWrite 0x0C 2 0) ∧ Request.HasNoStep config (.regRead 0x0D 4) ∧
      Request.HasNoStep config (.dmemWrite 0x3FFFF 2 0) ∧ Request.HasNoStep config (.dmemRead 0 3) ∧
      ¬ Request.HasNoStep config (.dmemRead 0x3FFFE 2) ∧ ¬ Request.HasNoStep config (.regWrite 0xFFFFFFFC 4 0) := by
  refine ⟨machine_inv 0 [] bank_good (by decide), ?_⟩
  unfold Request.HasNoStep
  decide

theorem witness_HostDmemWriteThenRead :
    Memory.wf (machine bank 0x3FFFC [1, 2]).dmem ∧ 4 ∈ [1, 2, 4] ∧
      0x3FFFC + 4 ≤ (machine bank 0x3FFFC [1, 2]).cfg.dmemSize :=
  ⟨(machine_inv 0x3FFFC [1, 2] bank_good (by decide)).dmem_wf, by decide, by decide⟩

/-- Each way a byte changes: a DMEM write, and the first byte of a frame. -/
theorem witness_ByteChangesOnlyByAWriteToIt :
    let s := { waiting bank (.dmemWrite 0x10 1 7) with dmem := [(0x10, 5)] }
    let b : Bank := { bank with dst := 0x10 }
    let u := { waiting b (.regWrite (regOffset 0 .op) 4 0x00000010) with dmem := [(0x10, 5)] }
    (Memory.wf s.dmem ∧ ∃ t, step s = .next t ∧ t.memByte 0x10 ≠ s.memByte 0x10) ∧
      Memory.wf u.dmem ∧ ∃ t, step u = .next t ∧ t.memByte 0x10 ≠ u.memByte 0x10 :=
  ⟨⟨by decide, _, rfl, by decide +kernel⟩, by decide, _, rfl, by decide +kernel⟩

theorem witness_ReadsHaveNoSideEffect :
    (∃ t, (machine bank).serve 1 (.regRead 0x28 4) = .next t) ∧
      ∃ t, (machine bank).serve 1 (.dmemRead 0x3FFFF 1) = .next t := ⟨⟨_, rfl⟩, ⟨_, rfl⟩⟩

theorem witness_RegisterReadReturnsTheRegister : (machine bank).HasPort 1 bank := ⟨by decide, rfl⟩

/-- Both clauses: the first and last read/write registers, and the read-only ones. -/
theorem witness_RegisterWriteThenRead :
    (machine bank).HasPort 1 bank ∧
      (∀ r ∈ [RegName.src, .acc], r ∈ [RegName.src, .len, .dst, .cmd, .addrLo, .addrHi, .decl, .acc]) ∧
      ∀ r ∈ [RegName.cause, .frameLen], r ∈ [RegName.cause, .result, .frameLen] :=
  ⟨⟨by decide, rfl⟩, by decide, by decide⟩

/-- Both clauses: the first and last reserved offset of a bank, and the first offset beyond the last bank. -/
theorem witness_ReservedOffsetsReadZero :
    ∀ off ∈ [0x34, 0xFC, 0x134, 0x200],
      off % 4 = 0 ∧ (0x34 ≤ off % 0x100 ∨ (machine bank).cfg.nPorts * 0x100 ≤ off) := by
  decide

theorem witness_StatusWriteOneClearsTrunc : (machine { bank with trunc := true }).HasPort 0 { bank with trunc := true } :=
  ⟨by decide, rfl⟩

/-- Both ways TRUNC is cleared: a STATUS write and a reset. -/
theorem witness_TruncIsSticky :
    (∃ t c, step (waiting { bank with trunc := true } (.regWrite (regOffset 0 .status) 4 2)) = .next t ∧
      t.bank? 0 = some c ∧ c.trunc = false) ∧
    ∃ t c, step { machine { bank with trunc := true } with agenda := [.reset] } = .next t ∧ t.bank? 0 = some c ∧
      c.trunc = false :=
  ⟨⟨_, _, rfl, rfl, by decide⟩, ⟨_, _, rfl, rfl, rfl⟩⟩

/-- A state in which port 0 can run any operation. -/
theorem witness_CrcStartLoadsTheInitialValue : (machine bank).bank? (machine bank).issuer = some bank := rfl

theorem witness_CrcWordSFoldsTheImmediate : (machine bank).bank? (machine bank).issuer = some bank := rfl

theorem witness_CrcWordTFoldsTheTableEntry : (machine bank).bank? (machine bank).issuer = some bank := rfl

/-- A range that ends at `P_DMEM_SIZE`. -/
theorem witness_CrcBufSFoldsTheBuffer :
    let b : Bank := { bank with src := 0x3FFFF, len := 1 }
    (machine b).bank? (machine b).issuer = some b ∧ b.src.toNat + b.len.toNat ≤ (machine b).cfg.dmemSize :=
  ⟨rfl, by decide⟩

theorem witness_CrcBufTFoldsTheBuffer :
    let b : Bank := { bank with src := 0x40000, len := 0 }
    (machine b).bank? (machine b).issuer = some b ∧ b.src.toNat + b.len.toNat ≤ (machine b).cfg.dmemSize :=
  ⟨rfl, by decide⟩

/-- Each of the three operations, with a range one byte too long and one that would wrap. -/
theorem witness_SourceRangeErrorIsReported :
    (∀ i ∈ [Instr.crcBufS, .crcBufT, .pktValidate], i ∈ [Instr.crcBufS, .crcBufT, .pktValidate]) ∧
      ∀ b ∈ [({ bank with src := 0x3FFFF, len := 2 } : Bank), { bank with src := 0xFFFFFFFF, len := 1 }],
        (machine b).bank? (machine b).issuer = some b ∧ (machine b).cfg.dmemSize < b.src.toNat + b.len.toNat :=
  ⟨fun _ h => h, fun b hb => ⟨rfl, by revert b; decide⟩⟩

theorem witness_TblInitEnsuresTheTable : (machine bank).bank? (machine bank).issuer = some bank := rfl

theorem witness_TblReadReturnsTheEntry :
    (machine bank).Inv ∧ (machine bank).bank? (machine bank).issuer = some bank :=
  ⟨machine_inv 0 [] bank_good (by decide), rfl⟩

/-- The largest command byte, and a frame that ends at `P_DMEM_SIZE` (X2, X11). -/
theorem witness_PktBuildWritesTheFrame :
    let b : Bank := { bank with cmd := 0xFF, addrLo := 0xFFFFFFFF, dst := 0x3FFF4 }
    Memory.wf (machine b).dmem ∧ (machine b).bank? (machine b).issuer = some b ∧ b.cmd.toNat ≤ 0xFF ∧ b.addrHi = 0 ∧
      b.len.toNat ≤ 0xFFFF ∧ b.src.toNat + b.len.toNat ≤ (machine b).cfg.dmemSize ∧
      b.dst.toNat + (12 + b.len.toNat) ≤ (machine b).cfg.dmemSize :=
  ⟨List.Pairwise.nil, rfl, by decide, rfl, by decide, by decide, by decide⟩

/-- The same with the D flag and the largest declared length (PB6). -/
theorem witness_PktBuildWritesTheFrame_declared :
    let b : Bank := { bank with cmd := 0x21, decl := 0xFFFF, dst := 0x300 }
    Memory.wf (machine b).dmem ∧ (machine b).bank? (machine b).issuer = some b ∧ b.cmd.toNat ≤ 0xFF ∧ b.addrHi = 0 ∧
      b.decl.toNat ≤ 0xFFFF ∧ b.src.toNat + b.len.toNat ≤ (machine b).cfg.dmemSize ∧
      b.dst.toNat + (12 + b.decl.toNat) ≤ (machine b).cfg.dmemSize :=
  ⟨List.Pairwise.nil, rfl, by decide, rfl, by decide, by decide, by decide⟩

/-- Each of the five errors, at the edge of its range (X1, X3, X6, X9, X10), with D = 0. -/
theorem witness_PktBuildReportsTheFirstError :
    (∀ b : Bank, (machine b).bank? (machine b).issuer = some b) ∧
      (let b : Bank := { bank with cmd := 0x100 }; 0xFF < b.cmd.toNat) ∧
      (let b : Bank := { bank with cmd := 0xFF, addrHi := 1 }; b.cmd.toNat ≤ 0xFF ∧ b.addrHi ≠ 0) ∧
      (let b : Bank := { bank with len := 0x10000 }
       b.cmd.toNat ≤ 0xFF ∧ b.addrHi = 0 ∧ 0xFFFF < b.len.toNat) ∧
      (let b : Bank := { bank with src := 0x3FFFF, len := 2 }
       b.cmd.toNat ≤ 0xFF ∧ b.addrHi = 0 ∧ b.len.toNat ≤ 0xFFFF ∧ config.dmemSize < b.src.toNat + b.len.toNat) ∧
      (let b : Bank := { bank with dst := 0x3FFF5 }
       b.cmd.toNat ≤ 0xFF ∧ b.addrHi = 0 ∧ b.len.toNat ≤ 0xFFFF ∧ b.src.toNat + b.len.toNat ≤ config.dmemSize ∧
         config.dmemSize < b.dst.toNat + (12 + b.len.toNat)) :=
  ⟨fun _ => rfl, by decide, by decide, by decide, by decide, by decide⟩

/-- Lists of 3 and of 4 bytes: the two sides of the length test (V2, V3). -/
theorem witness_PktValidateChecksTheSum :
    ∀ b ∈ [({ bank with len := 3 } : Bank), { bank with len := 4 }],
      (machine b).bank? (machine b).issuer = some b ∧ b.src.toNat + b.len.toNat ≤ (machine b).cfg.dmemSize :=
  fun b hb => ⟨rfl, by revert b; decide⟩

theorem witness_EveryOperationCompletes : (machine bank).bank? (machine bank).issuer = some bank := rfl

/-- Every clause: an operation of each group, with the state it leads to. -/
theorem witness_OperationWritesOnlyItsRegisters :
    ∀ i ∈ [Instr.tblInit, .pktValidate, .tblRead 0, .pktBuild true, .crcStart, .crcWordS 0, .crcWordT 0, .crcBufS],
      ∃ t c, exec i (machine bank) = .next t ∧ (machine bank).bank? (machine bank).issuer = some bank ∧
        t.bank? (machine bank).issuer = some c := by
  intro i _
  obtain ⟨t, ht⟩ : ∃ t, exec i (machine bank) = .next t := by cases i <;> exact ⟨_, rfl⟩
  obtain ⟨b, -, ⟨e, rfl, -⟩ | ⟨u, c, rfl, -, -, hu⟩⟩ := exec_cases ht
  · exact ⟨_, _, ht, rfl, rfl⟩
  · rcases hu with rfl | rfl | ⟨d, -, -, rfl⟩ <;> exact ⟨_, _, ht, rfl, rfl⟩

/-- An operation that ends in an error (X1). -/
theorem witness_ErrorsArePrecise :
    let b : Bank := { bank with cmd := 0x100 }
    ∃ t c, exec (.pktBuild false) (machine b) = .next t ∧ (machine b).bank? (machine b).issuer = some b ∧
      t.bank? (machine b).issuer = some c ∧ c.err = true := ⟨_, _, rfl, rfl, rfl, rfl⟩

theorem witness_ErrAndCauseReportTheOperation :
    ∃ t c, exec .crcStart (machine bank) = .next t ∧ t.bank? (machine bank).issuer = some c := ⟨_, _, rfl, rfl⟩

theorem witness_SelfCheckNeverOccurs :
    ∃ t c, exec (.pktBuild true) (machine bank) = .next t ∧ t.bank? (machine bank).issuer = some c := ⟨_, _, rfl, rfl⟩

/-- A state with the table built and a request to serve. -/
theorem witness_BuiltTableStaysUntilReset :
    let s : State := (waiting bank (.regWrite (regOffset 0 .op) 4 0x00000001)).ensureTable
    (∃ t, step s = .next t) ∧ s.tvalid = true ∧ ∀ rest, s.agenda ≠ .reset :: rest := by
  refine ⟨⟨_, rfl⟩, State.ensureTable_tvalid _, fun rest h => ?_⟩
  rw [State.ensureTable_agenda] at h
  exact absurd (List.head_eq_of_cons_eq h) (by decide)

/-- The same: the law holds of a built table, so its premise is not empty. -/
theorem witness_StepKeepsTheTableLaw :
    let s : State := (waiting bank (.regWrite (regOffset 0 .op) 4 0x00000001)).ensureTable
    (s.tvalid = true ∧ ∀ w : Word16, s.dtab[w.toNat]? = some (contribT s.cfg.matrix w)) ∧ ∃ t, step s = .next t := by
  refine ⟨⟨State.ensureTable_tvalid _, fun w => ?_⟩, ⟨_, rfl⟩⟩
  rw [State.ensureTable_cfg]
  exact ((State.ensureTable_ensured _).2.2 rfl).2 w

/-- Both clauses: a good state with the table built, and one of each pair of operations. -/
theorem witness_TableFormEqualsDirectForm :
    (machine bank).ensureTable.Inv ∧ (machine bank).ensureTable.tvalid = true ∧
      (machine bank).ensureTable.bank? (machine bank).ensureTable.issuer = some bank ∧
      (∃ i j, i = Instr.crcBufS ∧ j = Instr.crcBufT) ∧
      ∃ (i j : Instr) (w : Word16), i = .crcWordS w ∧ j = .crcWordT w :=
  ⟨ensured_inv bank_good, State.ensureTable_tvalid _, by rw [State.ensureTable_bank?, State.ensureTable_issuer]; rfl,
    ⟨_, _, rfl, rfl⟩,
    ⟨_, _, 0xFFFF, rfl, rfl⟩⟩

theorem witness_TableOperationsCommute :
    (0 : Nat) ≠ 1 ∧ (machine bank).bank? 0 = some bank ∧ (machine bank).bank? 1 = some bank ∧
      (∀ d, Instr.tblInit ≠ .pktBuild d) ∧ ∀ d, Instr.crcBufT ≠ .pktBuild d :=
  ⟨by decide, rfl, rfl, by decide, by decide⟩

/-- The last two clauses: the first operation can leave the table built. -/
theorem witness_TableOperationsCommute_built :
    ∃ t, exec .tblInit { machine bank with issuer := 0 } = .next t ∧ t.tvalid = true :=
  ⟨_, rfl, State.ensureTable_tvalid _⟩

theorem witness_BanksArePrivate :
    ∃ t, step (waiting bank (.regWrite 0x10 4 5)) = .next t ∧ t.bank? 0 ≠ (waiting bank (.regWrite 0x10 4 5)).bank? 0 :=
  ⟨_, rfl, by decide +kernel⟩

theorem witness_OperationsIgnoreOtherBanks :
    1 ≠ (machine bank).issuer ∧ ∃ t, exec (.tblRead 0) (machine bank) = .next t := ⟨by decide, ⟨_, rfl⟩⟩

theorem witness_StepKeepsGoodStates :
    (waiting bank (.dmemWrite 0x3FFFC 4 7)).Inv ∧ ∃ t, step (waiting bank (.dmemWrite 0x3FFFC 4 7)) = .next t :=
  ⟨waiting_inv _ bank_good, ⟨_, rfl⟩⟩

theorem witness_StepKeepsTheConfiguration : ∃ t, step { machine bank with agenda := [.reset] } = .next t := ⟨_, rfl⟩

/-- Both kinds of reset: at power-on and between events. -/
theorem witness_ResetValues :
    (∃ s, s = State.resetWith config 3) ∧
      ∃ s s0 : State, s0.cfg = config ∧ s0.agenda = .reset :: [] ∧ step s0 = .next s ∧ s.bank? 1 = some bank :=
  ⟨⟨_, rfl⟩, ⟨_, { machine { bank with acc := 5 } with agenda := [.reset] }, rfl, rfl, rfl, rfl⟩⟩

/-- A pair of bytes, and an odd last byte, of the same list. -/
theorem witness_WordSplit : 2 * 0 + 1 < ([1, 2, 3] : List Byte).length ∧ ([1, 2, 3] : List Byte).length % 2 = 1 := by
  decide

/-- The three clauses with premises: an even first part, two lists of one length, and a table that holds T. -/
theorem witness_FoldLaws :
    ([1, 2] : List Byte).length % 2 = 0 ∧ ([1, 2, 3] : List Byte).length = ([4, 5, 6] : List Byte).length ∧
      ∀ w : Word16, (builtTable ex1)[w.toNat]? = some (contribT ex1 w) :=
  ⟨by decide, by decide, getElem?_builtTable ex1⟩

theorem witness_OddByteFoldsAsZeroPadded : ([1, 2, 3] : List Byte).length % 2 = 1 := by decide

theorem witness_StartThenFoldIsTheChecksum :
    let b : Bank := { bank with src := 0x100, len := 3 }
    (machine b 0x100 [1, 2, 3]).Inv ∧
      (machine b 0x100 [1, 2, 3]).bank? (machine b 0x100 [1, 2, 3]).issuer = some b ∧
      b.src.toNat + b.len.toNat ≤ (machine b 0x100 [1, 2, 3]).cfg.dmemSize ∧
      ∀ i ∈ [Instr.crcBufS, .crcBufT], i ∈ [Instr.crcBufS, .crcBufT] :=
  ⟨machine_inv 0x100 [1, 2, 3] ⟨by decide, by decide⟩ (by decide), rfl, by decide, fun _ h => h⟩

/-- The shortest and the longest payload. -/
theorem witness_BuiltFrameIsValid :
    (0 ≤ 0xFFFF ∧ ([] : List Byte).length = 0) ∧ 0xFFFF ≤ 0xFFFF ∧ (List.replicate 0xFFFF (0xFF : Byte)).length = 0xFFFF :=
  ⟨⟨by decide, rfl⟩, by decide, List.length_replicate⟩

/-- The first byte of the frame PB1, and its last (V7's start code, V9's checksum). -/
theorem witness_SingleByteChangeIsDetected :
    let f := frame 0x21 0x00010000 3 [1, 2, 3]
    3 ≤ 0xFFFF ∧ ([1, 2, 3] : List Byte).length = 3 ∧ 0 < f.length ∧ f[0]? ≠ some 0x5A ∧ 14 < f.length ∧
      f[14]? ≠ some 1 := by
  decide

theorem witness_FrameFields : 0xFFFF ≤ 0xFFFF ∧ (List.replicate 0xFFFF (0xFF : Byte)).length = 0xFFFF :=
  ⟨by decide, List.length_replicate⟩

/-- A payload of the declared length, and one a byte longer. -/
theorem witness_PayloadIsFitted : ([1, 2] : List Byte).length ≤ 2 ∧ 2 < ([1, 2, 3] : List Byte).length := by decide

/-- Two payload bytes swapped (V8), and the first byte of the frame against the last before the checksum. -/
theorem witness_CancellingChangesAreNotDetected :
    let f := frame 0x21 0x00010000 3 [1, 2, 3]
    3 ≤ 0xFFFF ∧ ([1, 2, 3] : List Byte).length = 3 ∧
      (8 < 8 + 3 ∧ 9 < 8 + 3 ∧ 8 ≠ 9 ∧ (2#8).toNat + (1#8).toNat = (f.getD 8 0).toNat + (f.getD 9 0).toNat) ∧
      0 < 8 + 3 ∧ 10 < 8 + 3 ∧ 0 ≠ 10 ∧ (0xA6#8).toNat + (2#8).toNat = (f.getD 0 0).toNat + (f.getD 10 0).toNat := by
  decide

end Sys2Proof.Machine.Tests
end

section
/-! PROOFS. The scope's notation (R10): parity counts the set bits. -/

namespace Sys2Proof.Machine

/-- The XOR of a predicate's values over a list is set iff the predicate holds at an odd number of its entries: each
entry where it holds flips both sides, and each other entry keeps both. -/
theorem foldl_xor_eq_true_iff (f : Nat → Bool) (l : List Nat) :
    l.foldl (fun q i => q ^^ f i) false = true ↔ (l.filter f).length % 2 = 1 := by
  induction l with
  | nil => simp
  | cons i l ih =>
    rw [List.foldl_cons, foldl_xor_init, Bool.false_xor]
    cases hf : f i with
    | false => rw [List.filter_cons_of_neg (by simp [hf]), Bool.false_xor, ih]
    | true =>
      rw [List.filter_cons_of_pos hf, List.length_cons, Bool.true_xor, Bool.not_eq_true', ← Bool.not_eq_true, ih]
      omega

/-- Settles O55: `parity` is such an XOR, over the bit positions of v. -/
theorem parityCountsTheSetBits : Obligations.ParityCountsTheSetBits :=
  fun n v => foldl_xor_eq_true_iff (fun j => v.getLsbD j) (List.range n)

end Sys2Proof.Machine
end

section
/-! PROOFS. The state (spec/10_state.md): what a step can be, and what each operation writes and leaves unchanged. -/

namespace Sys2Proof.Machine

variable {s t u : State} {p : Nat} {b c : Bank}

/-! ## What a step can be -/

/-- Everything a step can be, by its next state: a turn passes, the block resets, or the next request is served. -/
theorem step_next_cases (h : step s = .next t) :
    t = { s with agenda := s.agenda.tail } ∨
      (∃ rest, s.agenda = .reset :: rest ∧ t = ({ s with agenda := rest } : State).resetNow) ∨
      (∃ k r rest qs, s.NextRequest k r ∧ State.serve { s with agenda := rest, streams := qs } k r = .next t) := by
  obtain ⟨ha, hs⟩ | ⟨rest, ha, hs⟩ | ⟨k, rest, ha, -, hs⟩ | ⟨k, rest, r, qs, ha, hq, hs⟩ := step_cases (s := s)
  · cases hs.symm.trans h
    exact .inl (by rw [ha, List.tail_nil, ← ha])
  · cases hs.symm.trans h
    exact .inr (.inl ⟨rest, ha, rfl⟩)
  · cases hs.symm.trans h
    exact .inl (by rw [ha, List.tail_cons])
  · exact .inr (.inr ⟨k, r, rest, qs, ⟨rest, qs, ha, hq⟩, hs.symm.trans h⟩)

/-- The turn of a requester with a request is the event of that request (R60, R61). -/
theorem step_serve {k : Nat} {rest : List Turn} {r : Request} {q : List Request} (ha : s.agenda = .serve k :: rest)
    (hq : s.streams[k]? = some (r :: q)) :
    step s = State.serve { s with agenda := rest, streams := s.streams.set k q } k r := by
  have hp : popStream s.streams k = some (r, s.streams.set k q) := popStream_eq_some.mpr ⟨q, hq, rfl⟩
  simp only [step, ha, State.turn, hp]

/-- The turn of a reset is the reset (R211). -/
theorem step_reset {rest : List Turn} (ha : s.agenda = .reset :: rest) :
    step s = .next ({ s with agenda := rest } : State).resetNow := by
  simp only [step, ha, State.turn]

/-- A step leaves the configuration as it was (R35). -/
theorem step_keeps_cfg (h : step s = .next t) : t.cfg = s.cfg := by
  obtain rfl | ⟨rest, -, rfl⟩ | ⟨k, r, rest, qs, -, hs⟩ := step_next_cases h
  · rfl
  · rfl
  · exact (State.serve_keeps hs).1

/-- Settles O44: no turn writes the configuration. -/
theorem stepKeepsTheConfiguration : Obligations.StepKeepsTheConfiguration :=
  fun _ _ => step_keeps_cfg

/-- Settles O7: the turn serves the OP write, whose offset leads to the port's OP register. -/
theorem stepRunsTheDecodedOperation : Obligations.StepRunsTheDecodedOperation := by
  intro s k p b v i rest q ha hq hp hd
  obtain ⟨hlt, hb⟩ := hp
  rw [step_serve ha hq]
  calc State.regWrite { s with agenda := rest, streams := s.streams.set k q } (regOffset p .op) 4 v
    _ = (State.issue { s with agenda := rest, streams := s.streams.set k q } p b v).runWord v :=
      State.regWrite_op v hlt hb
    _ = _ := State.runWord_instr hd

/-! ## What each operation writes -/

/-- An operation of an existing port has a next state (R219). -/
theorem exec_completes (i : Instr) (hb : s.bank? s.issuer = some b) : ∃ t, exec i s = .next t := by
  cases i <;> exact ⟨_, State.withIssuer_some hb _⟩

/-- An OP write's operation has a next state, whatever the word (R112, R219). -/
theorem State.runWord_completes (v : Word32) (hb : s.bank? s.issuer = some b) : ∃ t, s.runWord v = .next t := by
  cases hd : decode v with
  | instr i => rw [State.runWord_instr hd]; exact exec_completes i hb
  | illegalOp => exact ⟨_, State.runWord_illegal hd hb⟩

/-- Operation `i` on bank `b`, where it succeeds, prepares the state `u` and the registers `c`, to be reported as a
success: the registers R75 lists as its results, the table for the table operations, DMEM for PKT_BUILD. -/
def OpWrites (i : Instr) (s : State) (b : Bank) (u : State) (c : Bank) : Prop :=
  match i with
  | .crcStart | .crcWordS _ | .crcBufS => u = s ∧ ∃ v, c = { b with acc := v, result := v }
  | .crcWordT _ | .crcBufT => u = s.ensureTable ∧ ∃ v, c = { b with acc := v, result := v }
  | .tblInit => u = s.ensureTable ∧ c = b
  | .tblRead _ => u = s.ensureTable ∧ ∃ v, c = { b with result := v }
  | .pktBuild _ =>
    (∃ a l, u = s.memWriteBytes a l) ∧ ∃ n v z, c = { b with frameLen := n, result := v, trunc := z }
  | .pktValidate => u = s ∧ ∃ v, c = { b with result := v }

/-- An operation reports an error, or it succeeds and writes what is its to write (R75, R184, R185). -/
theorem exec_writes {i : Instr} (h : exec i s = .next t) (hb : s.bank? s.issuer = some b) :
    (∃ e, t = s.raise b e) ∨ ∃ u c, t = u.succeed c ∧ OpWrites i s b u c := by
  cases i with
  | crcStart => cases (exec_crcStart hb).symm.trans h; exact .inr ⟨_, _, rfl, rfl, _, rfl⟩
  | crcWordS w => cases (exec_crcWordS hb w).symm.trans h; exact .inr ⟨_, _, rfl, rfl, _, rfl⟩
  | crcWordT w => cases (exec_crcWordT hb w).symm.trans h; exact .inr ⟨_, _, rfl, rfl, _, rfl⟩
  | crcBufS =>
    rcases Nat.lt_or_ge s.cfg.dmemSize (b.src.toNat + b.len.toNat) with hr | hr
    · cases (exec_crcBufS_range hb hr).symm.trans h; exact .inl ⟨_, rfl⟩
    · cases (exec_crcBufS hb hr).symm.trans h; exact .inr ⟨_, _, rfl, rfl, _, rfl⟩
  | crcBufT =>
    rcases Nat.lt_or_ge s.cfg.dmemSize (b.src.toNat + b.len.toNat) with hr | hr
    · cases (exec_crcBufT_range hb hr).symm.trans h; exact .inl ⟨_, rfl⟩
    · cases (exec_crcBufT hb hr).symm.trans h; exact .inr ⟨_, _, rfl, rfl, _, rfl⟩
  | tblInit => cases (exec_tblInit hb).symm.trans h; exact .inr ⟨_, _, rfl, rfl, rfl⟩
  | tblRead w => cases (exec_tblRead hb w).symm.trans h; exact .inr ⟨_, _, rfl, rfl, _, rfl⟩
  | pktBuild d =>
    cases he : buildError s.cfg b d with
    | some e => cases (exec_pktBuild_error hb he).symm.trans h; exact .inl ⟨_, rfl⟩
    | none =>
      cases hv : validFrame (buildFrame s b d) with
      | false => cases (exec_pktBuild_selfCheck hb he hv).symm.trans h; exact .inl ⟨_, rfl⟩
      | true => cases (exec_pktBuild hb he hv).symm.trans h; exact .inr ⟨_, _, rfl, ⟨_, _, rfl⟩, _, _, _, rfl⟩
  | pktValidate =>
    rcases Nat.lt_or_ge s.cfg.dmemSize (b.src.toNat + b.len.toNat) with hr | hr
    · cases (exec_pktValidate_range hb hr).symm.trans h; exact .inl ⟨_, rfl⟩
    · cases (exec_pktValidate hb hr).symm.trans h; exact .inr ⟨_, _, rfl, rfl, _, rfl⟩

/-- The table of `t` is that of `s`: `g.TVALID`, `g.DTAB` and the byte tables. -/
def SameTable (s t : State) : Prop :=
  t.tvalid = s.tvalid ∧ t.dtab = s.dtab ∧ t.stateTables = s.stateTables

theorem SameTable.refl (s : State) : SameTable s s := ⟨rfl, rfl, rfl⟩

/-- The table reads and the Packet operations do not write ACC (R75). -/
theorem OpWrites.keeps_acc {i : Instr} (h : OpWrites i s b u c)
    (hi : i ∈ [Instr.tblInit, .pktValidate] ∨ (∃ w, i = .tblRead w) ∨ (∃ d, i = .pktBuild d)) : c.acc = b.acc := by
  simp only [List.mem_cons, List.not_mem_nil, or_false] at hi
  obtain (rfl | rfl) | ⟨w, rfl⟩ | ⟨d, rfl⟩ := hi
  · obtain ⟨-, rfl⟩ := h; rfl
  · obtain ⟨-, v, rfl⟩ := h; rfl
  · obtain ⟨-, v, rfl⟩ := h; rfl
  · obtain ⟨-, n, v, z, rfl⟩ := h; rfl

/-- Only PKT_BUILD writes FRAME_LEN, TRUNC or DMEM (R75). -/
theorem OpWrites.keeps_frame {i : Instr} (h : OpWrites i s b u c) (hi : ∀ d, i ≠ .pktBuild d) :
    c.frameLen = b.frameLen ∧ c.trunc = b.trunc ∧ u.dmem = s.dmem := by
  cases i with
  | crcStart | crcWordS _ | crcBufS | pktValidate => obtain ⟨rfl, v, rfl⟩ := h; exact ⟨rfl, rfl, rfl⟩
  | crcWordT _ | crcBufT | tblRead _ => obtain ⟨rfl, v, rfl⟩ := h; exact ⟨rfl, rfl, s.ensureTable_dmem⟩
  | tblInit => obtain ⟨rfl, rfl⟩ := h; exact ⟨rfl, rfl, s.ensureTable_dmem⟩
  | pktBuild d => exact absurd rfl (hi d)

/-- Only the four table operations touch the table (R75, R111). -/
theorem OpWrites.keeps_table {i : Instr} (h : OpWrites i s b u c)
    (hi : i ∈ [Instr.crcStart, .crcBufS, .pktValidate] ∨ (∃ w, i = .crcWordS w) ∨ (∃ d, i = .pktBuild d)) :
    SameTable s u := by
  simp only [List.mem_cons, List.not_mem_nil, or_false] at hi
  obtain (rfl | rfl | rfl) | ⟨w, rfl⟩ | ⟨d, rfl⟩ := hi
  · obtain ⟨rfl, -⟩ := h; exact .refl _
  · obtain ⟨rfl, -⟩ := h; exact .refl _
  · obtain ⟨rfl, -⟩ := h; exact .refl _
  · obtain ⟨rfl, -⟩ := h; exact .refl _
  · obtain ⟨⟨a, l, rfl⟩, -⟩ := h; exact .refl _

/-! ## What every operation leaves unchanged -/

/-- An operation changes no bank but the issuing port's (R216). -/
theorem exec_banksSameBut {i : Instr} (h : exec i s = .next t) : BanksSameBut s.issuer s t := by
  obtain ⟨b, -, ⟨e, rfl, -⟩ | ⟨u, c, rfl, -, -, rfl | rfl | ⟨d, -, -, rfl⟩⟩⟩ := exec_cases h
  · exact s.setBank_sameBut s.issuer _
  · exact u.setBank_sameBut u.issuer _
  · exact (s.ensureTable_succeed_only c).2
  · exact s.setBank_sameBut s.issuer _

/-- An operation changes at most banks, DMEM and the table. -/
theorem exec_only {i : Instr} (h : exec i s = .next t) :
    t = { s with banks := t.banks, dmem := t.dmem, tvalid := t.tvalid, dtab := t.dtab,
                 stateTables := t.stateTables } := by
  obtain ⟨hcfg, hagenda, hstreams, hreplies, hepoch, hissuer⟩ := exec_keeps h
  rw [← hcfg, ← hagenda, ← hstreams, ← hreplies, ← hepoch, ← hissuer]

/-- The issuing port's bank after an error (R184). -/
theorem State.raise_bank? {e : OpError} (hb : s.bank? s.issuer = some b) :
    (s.raise b e).bank? s.issuer = some (b.raise e) :=
  s.bank?_setBank_self _ _ (State.bank?_lt hb)

/-- The issuing port's bank after a success (R185). -/
theorem State.succeed_bank? (hb : s.bank? s.issuer = some b) (hu : u.banks = s.banks) (hi : u.issuer = s.issuer) :
    (u.succeed c).bank? s.issuer = some c.ok := by
  rw [← hi]
  exact u.bank?_setBank_self _ _ (by rw [hu, hi]; exact State.bank?_lt hb)

/-- A success builds the table or writes DMEM before any register: banks and issuer are still those of the start. -/
theorem OpWrites.banks_and_issuer {i : Instr} (h : OpWrites i s b u c) : u.banks = s.banks ∧ u.issuer = s.issuer := by
  cases i with
  | crcStart | crcWordS _ | crcBufS | pktValidate => obtain ⟨rfl, -⟩ := h; exact ⟨rfl, rfl⟩
  | crcWordT _ | crcBufT | tblInit | tblRead _ =>
    obtain ⟨rfl, -⟩ := h; exact ⟨s.ensureTable_banks, s.ensureTable_issuer⟩
  | pktBuild _ => obtain ⟨⟨a, l, rfl⟩, -⟩ := h; exact ⟨rfl, rfl⟩

/-- No operation writes OP or an operand register (R26, R75). -/
theorem OpWrites.sameOperands {i : Instr} (h : OpWrites i s b u c) : SameOperands b c := by
  cases i with
  | crcStart | crcWordS _ | crcBufS | pktValidate | crcWordT _ | crcBufT | tblRead _ =>
    obtain ⟨-, v, rfl⟩ := h; exact ⟨rfl, rfl, rfl, rfl, rfl, rfl, rfl, rfl⟩
  | tblInit => obtain ⟨-, rfl⟩ := h; exact ⟨rfl, rfl, rfl, rfl, rfl, rfl, rfl, rfl⟩
  | pktBuild _ => obtain ⟨-, n, v, z, rfl⟩ := h; exact ⟨rfl, rfl, rfl, rfl, rfl, rfl, rfl, rfl⟩

/-- Settles O32: an error writes ERR and CAUSE alone, and a success what the operation is listed to write. -/
theorem operationWritesOnlyItsRegisters : Obligations.OperationWritesOnlyItsRegisters := by
  intro i s t b c h hb hc
  rcases exec_writes h hb with ⟨e, rfl⟩ | ⟨u, d, rfl, hw⟩
  · cases (State.raise_bank? hb).symm.trans hc
    exact ⟨⟨rfl, rfl, rfl, rfl, rfl, rfl, rfl, rfl⟩, fun _ => rfl, fun _ => rfl, fun _ => ⟨rfl, rfl, rfl⟩,
      fun _ => ⟨rfl, rfl, rfl⟩, exec_banksSameBut h, exec_only h⟩
  · obtain ⟨hbanks, hissuer⟩ := hw.banks_and_issuer
    cases (State.succeed_bank? hb hbanks hissuer).symm.trans hc
    obtain ⟨hop, hsrc, hlen, hdst, hcmd, hlo, hhi, hdecl⟩ := hw.sameOperands
    refine ⟨⟨hop, hsrc, hlen, hdst, hcmd, hlo, hhi, hdecl⟩, hw.keeps_acc, ?_, hw.keeps_frame, hw.keeps_table,
      exec_banksSameBut h, exec_only h⟩
    rintro rfl
    obtain ⟨-, rfl⟩ := hw
    rfl

end Sys2Proof.Machine
end

section
/-! PROOFS. The state (spec/10_state.md): the shared table, good states and reset. -/

namespace Sys2Proof.Machine

variable {s t u : State} {p : Nat} {b c : Bank}

/-! ## The table (R33, R111) -/

/-- From `s` to `t` the table is as it was, or it was not built and now is, with `g.TVALID` (R111). -/
def TableKeptOrBuilt (s t : State) : Prop :=
  SameTable s t ∨ (s.tvalid = false ∧ t.tvalid = true ∧ t.dtab = builtTable s.cfg.matrix ∧
    t.stateTables = builtStateTables s.cfg)

theorem State.ensureTable_keptOrBuilt (s : State) : TableKeptOrBuilt s s.ensureTable := by
  cases hv : s.tvalid with
  | false => rw [State.ensureTable_of_invalid hv]; exact .inr ⟨hv, rfl, rfl, rfl⟩
  | true => rw [State.ensureTable_of_valid hv]; exact .inl (.refl s)

/-- An operation builds the table or leaves it: it writes it by `EnsureTable` alone (R111). -/
theorem exec_table {i : Instr} (h : exec i s = .next t) : TableKeptOrBuilt s t := by
  obtain ⟨b, -, ⟨e, rfl, -⟩ | ⟨u, c, rfl, -, -, rfl | rfl | ⟨d, -, -, rfl⟩⟩⟩ := exec_cases h
  · exact .inl (.refl s)
  · exact .inl (.refl u)
  · exact s.ensureTable_keptOrBuilt
  · exact .inl (.refl s)

theorem State.serve_table {k : Nat} {r : Request} (h : s.serve k r = .next t) : TableKeptOrBuilt s t := by
  obtain rfl | ⟨v, rfl⟩ | ⟨p, b, reg, v, -, -, -, -, rfl⟩ | ⟨p, b, v, -, -, -, hw⟩ | ⟨addr, width, v, -, -, -, rfl⟩ :=
    State.serve_cases h
  · exact .inl (.refl t)
  · exact .inl (.refl s)
  · exact .inl (.refl s)
  · obtain ⟨i, -, he⟩ | ⟨-, c, -, rfl⟩ := State.runWord_cases hw
    · exact exec_table (s := s.issue p b v) he
    · exact .inl (.refl s)
  · exact .inl (.refl s)

/-- A step resets the table, keeps it, or builds it. -/
theorem step_table (h : step s = .next t) :
    (t.tvalid = false ∧ ∃ rest, s.agenda = .reset :: rest) ∨ TableKeptOrBuilt s t := by
  obtain rfl | ⟨rest, ha, rfl⟩ | ⟨k, r, rest, qs, -, hs⟩ := step_next_cases h
  · exact .inr (.inl (.refl s))
  · exact .inl ⟨rfl, rest, ha⟩
  · exact .inr (State.serve_table (s := { s with agenda := rest, streams := qs }) hs)

/-- Settles O36: the step is no reset, and a table that is built is not built again. -/
theorem builtTableStaysUntilReset : Obligations.BuiltTableStaysUntilReset := by
  intro s t h hv hr
  rcases step_table h with ⟨-, rest, ha⟩ | ⟨hvalid, hdtab, -⟩ | ⟨hv', -⟩
  · exact absurd ha (hr rest)
  · exact ⟨hvalid.trans hv, hdtab⟩
  · rw [hv] at hv'; cases hv'

/-- The law of R33: while `g.TVALID = 1`, entry w of the table is T(w). -/
def State.TableLaw (s : State) : Prop :=
  s.tvalid = true → ∀ w : Word16, s.dtab[w.toNat]? = some (contribT s.cfg.matrix w)

theorem TableKeptOrBuilt.tableLaw (h : TableKeptOrBuilt s t) (hc : t.cfg = s.cfg) (hs : s.TableLaw) : t.TableLaw := by
  intro hv w
  rw [hc]
  rcases h with ⟨hvalid, hdtab, -⟩ | ⟨-, -, hdtab, -⟩
  · rw [hdtab]; exact hs (hvalid.symm.trans hv) w
  · rw [hdtab]; exact getElem?_builtTable s.cfg.matrix w

/-- Settles O37: after a reset no table is valid, a kept one obeys the law already, and a built one is T. -/
theorem stepKeepsTheTableLaw : Obligations.StepKeepsTheTableLaw := by
  intro s t hs h
  rcases step_table h with ⟨hv, -⟩ | htable
  · intro hv'; rw [hv] at hv'; cases hv'
  · exact htable.tableLaw (step_keeps_cfg h) hs

/-! ## Good states: each update keeps them (R8, R20, R24, R25, R33, R34, R50) -/

/-- A reset of a CPE within the bounds of R8 is a good state, whatever the draw. -/
theorem State.resetWith_inv {c : Config} (hc : c.wf) (e : Nat) : (State.resetWith c e).Inv where
  config_wf := hc
  bank_count := List.length_replicate
  banks_good := by
    intro b hb
    rw [List.eq_of_mem_replicate hb]
    exact ⟨List.mem_cons_self, by simp [Bank.reset]⟩
  table_built := by intro hv; cases hv
  table_length := length_drawnTable e
  state_tables := rfl
  dmem_wf := List.Pairwise.nil
  dmem_inside := by intro x hx; cases hx

/-- The host's side and the issuer are no part of what makes a state good. -/
theorem State.Inv.hostSide (h : s.Inv) (issuer : Nat) (streams : List (List Request)) (agenda : List Turn)
    (replies : List Reply) :
    ({ s with issuer := issuer, streams := streams, agenda := agenda, replies := replies } : State).Inv :=
  { h with }

theorem State.Inv.setBank (h : s.Inv) (p : Nat) (hb : b.Good) : (s.setBank p b).Inv :=
  { h with
    bank_count := List.length_set.trans h.bank_count
    banks_good := by
      intro x hx
      rcases List.mem_or_eq_of_mem_set hx with hx | rfl
      · exact h.banks_good x hx
      · exact hb }

theorem State.Inv.bank_good (h : s.Inv) (hb : s.bank? p = some b) : b.Good :=
  h.banks_good b (State.bank?_mem hb)

theorem State.Inv.memWriteBytes (h : s.Inv) {a : Nat} {l : List Byte} (ha : a + l.length ≤ s.cfg.dmemSize) :
    (s.memWriteBytes a l).Inv :=
  { h with
    dmem_wf := Memory.writeBytes_wf a l h.dmem_wf
    dmem_inside := by
      intro x hx
      rcases Memory.mem_writeBytes hx with ⟨-, hlt⟩ | hx
      · exact Nat.lt_of_lt_of_le hlt ha
      · exact h.dmem_inside x hx }

theorem State.Inv.ensureTable (h : s.Inv) : s.ensureTable.Inv := by
  have law : s.ensureTable.TableLaw := s.ensureTable_keptOrBuilt.tableLaw s.ensureTable_cfg h.table_built
  cases hv : s.tvalid with
  | true => rw [State.ensureTable_of_valid hv]; exact h
  | false =>
    rw [State.ensureTable_of_invalid hv] at law ⊢
    exact { h with table_built := law, table_length := length_builtTable _, state_tables := rfl }

/-- A host write changes neither ERR nor CAUSE (R24, R25). -/
theorem Bank.Good.hostWrite (hb : b.Good) (r : RegName) (v : Word32) : (b.hostWrite r v).Good :=
  ⟨by rw [Bank.hostWrite_cause]; exact hb.cause_reported,
    by rw [Bank.hostWrite_err, Bank.hostWrite_cause]; exact hb.err_iff_cause⟩

/-! ## Good states: every event keeps them -/

/-- A frame ends in the sum of what stands before it, so it is valid, whatever its fields (R143, R145). -/
theorem validFrame_frame (c : Byte) (addr : Word32) (l : Nat) (q : List Byte) :
    validFrame (frame c addr l q) = true := by
  rw [frame_eq, validFrame_append _ _ (length_bytesLE _ 4), valueLE_bytesLE, toNat_sum32]
  exact decide_eq_true (Nat.mod_mod _ _)

/-- No operation reports SELF_CHECK, and a frame is written inside DMEM; so an operation keeps the good states. -/
theorem exec_keeps_inv {i : Instr} (hs : s.Inv) (h : exec i s = .next t) : t.Inv := by
  obtain ⟨b, -, ⟨e, rfl, he⟩ | ⟨u, c, rfl, -, -, hu⟩⟩ := exec_cases h
  · refine hs.setBank _ (b.raise_good e ?_)
    rcases he with he | ⟨d, -, hv⟩
    · exact he
    · have := validFrame_frame b.commandByte b.addrLo (b.declaredLength d) (buildPayload s b d).1
      cases hv.symm.trans this
  · suffices hu : u.Inv from hu.setBank _ c.ok_good
    rcases hu with rfl | rfl | ⟨d, -, hd, rfl⟩
    · exact hs
    · exact hs.ensureTable
    · obtain ⟨-, -, -, -, hdst⟩ := (buildError_none_iff s.cfg b d).mp hd
      exact hs.memWriteBytes (by rw [length_buildFrame]; exact hdst)

theorem State.runWord_keeps_inv {v : Word32} (hs : s.Inv) (h : s.runWord v = .next t) : t.Inv := by
  obtain ⟨i, -, he⟩ | ⟨-, b, -, rfl⟩ := State.runWord_cases h
  · exact exec_keeps_inv hs he
  · exact hs.setBank _ (b.raise_good .illegalOp (by decide))

theorem State.serve_keeps_inv {k : Nat} {r : Request} (hs : s.Inv) (h : s.serve k r = .next t) : t.Inv := by
  obtain rfl | ⟨v, rfl⟩ | ⟨p, b, reg, v, -, hb, -, -, rfl⟩ | ⟨p, b, v, -, hb, -, hw⟩ |
    ⟨addr, width, v, -, -, ha, rfl⟩ :=
    State.serve_cases h
  · exact hs
  · exact hs.hostSide _ _ _ _
  · exact hs.setBank p ((hs.bank_good hb).hostWrite reg v)
  · have issued : (s.issue p b v).Inv := (hs.hostSide p _ _ _).setBank p ((hs.bank_good hb).hostWrite .op v)
    exact State.runWord_keeps_inv issued hw
  · exact hs.memWriteBytes (by rw [length_bytesLE]; exact ha)

/-- Settles O43: a turn that passes touches the host's side alone, a reset starts afresh, and an event keeps the good
states. -/
theorem stepKeepsGoodStates : Obligations.StepKeepsGoodStates := by
  intro s t hs h
  obtain rfl | ⟨rest, -, rfl⟩ | ⟨k, r, rest, qs, -, hs'⟩ := step_next_cases h
  · exact hs.hostSide _ _ _ _
  · exact (State.resetWith_inv hs.config_wf (s.epoch + 1)).hostSide _ _ _ _
  · exact State.serve_keeps_inv (hs.hostSide _ _ _ _) hs'

/-! ## Reset (R37, R210) -/

/-- The device's parameters are within the bounds of R8. -/
theorem Config.device_wf : Config.device.wf := by
  have := Config.pDmemBeyondLeast.isLt
  simp only [Config.wf, Config.device]
  omega

/-- Settles O42: power-on is a reset with the parameters of the device. -/
theorem resetIsGood : Obligations.ResetIsGood := State.resetWith_inv Config.device_wf 0

/-- Settles O45: both ways to reset fill the banks with `Bank.reset`, whose fields are the reset column of R21. -/
theorem resetValues : Obligations.ResetValues := by
  refine ⟨fun cfg e s rest hs => ?_, 0, rfl⟩
  have hreset : s.tvalid = false ∧ s.banks = List.replicate cfg.nPorts (Bank.reset cfg) := by
    rcases hs with rfl | ⟨s0, rfl, ha, hs⟩
    · exact ⟨rfl, rfl⟩
    · cases (step_reset ha).symm.trans hs
      exact ⟨rfl, rfl⟩
  obtain ⟨hv, hbanks⟩ := hreset
  refine ⟨hv, by rw [hbanks, List.length_replicate], fun p b hb => ?_⟩
  have hmem : b ∈ List.replicate cfg.nPorts (Bank.reset cfg) := hbanks ▸ State.bank?_mem hb
  have hstatus : s.readReg (Bank.reset cfg) .status = statusWord false false s.tvalid := rfl
  rw [List.eq_of_mem_replicate hmem, hstatus, hv]
  exact ⟨rfl, by decide, rfl, rfl, rfl, rfl, rfl, rfl, rfl, rfl, rfl, rfl, rfl⟩

end Sys2Proof.Machine
end

section
/-! PROOFS. The state (spec/10_state.md): TRUNC, the registers a host sees, and the accesses with no step. -/

namespace Sys2Proof.Machine

variable {s t u : State} {p : Nat} {b c : Bank}

/-! ## TRUNC is sticky (R24) -/

/-- Where port `p` has TRUNC set in `s`, it has TRUNC set in `t`. -/
def TruncKept (p : Nat) (s t : State) : Prop :=
  ∀ b, s.bank? p = some b → b.trunc = true → ∃ c, t.bank? p = some c ∧ c.trunc = true

theorem TruncKept.of_bank?_eq (h : t.bank? p = s.bank? p) : TruncKept p s t :=
  fun b hb ht => ⟨b, h.trans hb, ht⟩

theorem TruncKept.trans (hst : TruncKept p s t) (htu : TruncKept p t u) : TruncKept p s u := by
  intro b hb hv
  obtain ⟨c, hc, hv'⟩ := hst b hb hv
  exact htu c hc hv'

/-- Replacing a bank by one that keeps TRUNC keeps it for every port. -/
theorem TruncKept.of_set {q : Nat} (hq : s.bank? q = some b) (ht : t.banks = s.banks.set q c)
    (hbc : b.trunc = true → c.trunc = true) : TruncKept p s t := by
  have hbank : t.bank? p = (s.setBank q c).bank? p := by simp only [State.bank?, ht, State.setBank_banks]
  by_cases hpq : p = q
  · subst hpq
    intro b' hb' hv
    cases hq.symm.trans hb'
    exact ⟨c, hbank.trans (s.bank?_setBank_self p c (State.bank?_lt hq)), hbc hv⟩
  · exact .of_bank?_eq (hbank.trans (s.bank?_setBank_ne c hpq))

/-- No operation clears TRUNC (R24, R218). -/
theorem exec_truncKept {i : Instr} (h : exec i s = .next t) : TruncKept p s t := by
  obtain ⟨b, hb, ⟨e, rfl, -⟩ | ⟨u, c, rfl, -, hv, rfl | rfl | ⟨d, -, -, rfl⟩⟩⟩ := exec_cases h
  · exact .of_set (c := b.raise e) hb rfl id
  · exact .of_set (c := c.ok) hb rfl hv
  · exact .of_set (c := c.ok) hb (by simp) hv
  · exact .of_set (c := c.ok) hb rfl hv

theorem State.runWord_truncKept {v : Word32} (h : s.runWord v = .next t) : TruncKept p s t := by
  obtain ⟨i, -, he⟩ | ⟨-, b, hb, rfl⟩ := State.runWord_cases h
  · exact exec_truncKept he
  · exact .of_set (c := b.raise .illegalOp) hb rfl id

/-- A host write keeps TRUNC but for a 1 in STATUS bit 1 (R24). -/
theorem Bank.hostWrite_trunc {r : RegName} {v : Word32} (h : ¬ (r = .status ∧ v.getLsbD 1 = true))
    (hb : b.trunc = true) : (b.hostWrite r v).trunc = true := by
  cases r with
  | status =>
    have hv : v.getLsbD 1 = false := by simpa using h
    simp only [Bank.hostWrite, truncAfterWrite, hb, hv, Bool.not_false, Bool.and_self]
  | op | cause | src | len | dst | cmd | addrLo | addrHi | decl | acc | result | frameLen => exact hb

/-- The one event that clears a port's TRUNC. -/
theorem State.serve_truncKept {k : Nat} {r : Request} (h : s.serve k r = .next t) :
    TruncKept p s t ∨ ∃ v, r = .regWrite (regOffset p .status) 4 v ∧ v.getLsbD 1 = true := by
  obtain rfl | ⟨v, rfl⟩ | ⟨q, b, reg, v, hr, hb, -, -, rfl⟩ | ⟨q, b, v, -, hb, -, hw⟩ |
    ⟨addr, width, v, -, -, -, rfl⟩ :=
    State.serve_cases h
  · exact .inl (.of_bank?_eq rfl)
  · exact .inl (.of_bank?_eq rfl)
  · by_cases hpq : p = q
    · subst hpq
      by_cases hclear : reg = .status ∧ v.getLsbD 1 = true
      · obtain ⟨rfl, hv⟩ := hclear
        exact .inr ⟨v, hr, hv⟩
      · exact .inl (.of_set hb rfl (Bank.hostWrite_trunc hclear))
    · exact .inl (.of_bank?_eq (s.bank?_setBank_ne _ hpq))
  · have issued : TruncKept p s (s.issue q b v) := .of_set hb rfl id
    exact .inl (issued.trans (State.runWord_truncKept hw))
  · exact .inl (.of_bank?_eq rfl)

/-- Settles O19: of the turns that are no reset, only the STATUS write does not keep TRUNC. -/
theorem truncIsSticky : Obligations.TruncIsSticky := by
  intro s t p b c h hb hv hc hv'
  have not_kept : ¬ TruncKept p s t := by
    intro hkept
    obtain ⟨c', hc', hset⟩ := hkept b hb hv
    cases hc.symm.trans hc'
    rw [hv'] at hset; cases hset
  obtain rfl | ⟨rest, ha, -⟩ | ⟨k, r, rest, qs, hr, hs⟩ := step_next_cases h
  · exact absurd (.of_bank?_eq rfl) not_kept
  · exact .inl ⟨rest, ha⟩
  · rcases State.serve_truncKept (p := p) hs with hkept | ⟨v, rfl, hbit⟩
    · exact absurd hkept not_kept
    · exact .inr ⟨k, v, hr, hbit⟩

/-! ## The registers a host sees (R21 to R30) -/

/-- The bits of the STATUS word (R24). -/
theorem getLsbD_statusWord (err trunc tvalid : Bool) (i : Nat) :
    (statusWord err trunc tvalid).getLsbD i =
      if i = 0 then err else if i = 1 then trunc else if i = 2 then tvalid else false := by
  simp only [statusWord, BitVec.getLsbD_append, BitVec.getLsbD_ofBool, BitVec.getLsbD_zero]
  rcases i with _ | _ | _ | i <;> simp

/-- Settles O15: the reply is the register's value, and STATUS is taken bit by bit. -/
theorem registerReadReturnsTheRegister : Obligations.RegisterReadReturnsTheRegister := by
  intro s k p b r hp
  obtain ⟨hlt, hb⟩ := hp
  refine ⟨s.readReg b r, State.regRead_reg k r hlt hb, ?_⟩
  cases r with
  | status =>
    have bits := getLsbD_statusWord b.err b.trunc s.tvalid
    refine ⟨bits 0, bits 1, bits 2, fun i hi => (bits i).trans ?_⟩
    rw [if_neg (by omega), if_neg (by omega), if_neg (by omega)]
  | op | cause | src | len | dst | cmd | addrLo | addrHi | decl | acc | result | frameLen => rfl

/-- The read/write registers whose write stores the value and does nothing else (R26, R27). -/
def RegName.plain : List RegName := [.src, .len, .dst, .cmd, .addrLo, .addrHi, .decl, .acc]

/-- The read-only registers (R25, R28, R29). -/
def RegName.readOnly : List RegName := [.cause, .result, .frameLen]

theorem State.readReg_hostWrite_self {r : RegName} (hr : r ∈ RegName.plain) (b : Bank) (v : Word32) :
    s.readReg (b.hostWrite r v) r = v := by
  simp only [RegName.plain, List.mem_cons, List.not_mem_nil, or_false] at hr
  rcases hr with rfl | rfl | rfl | rfl | rfl | rfl | rfl | rfl <;> rfl

/-- A host write of one register leaves what every other reads as. -/
theorem State.readReg_hostWrite_ne {q r : RegName} (h : q ≠ r) (b : Bank) (v : Word32) :
    s.readReg (b.hostWrite r v) q = s.readReg b q := by
  revert h
  cases r <;> cases q <;> simp [State.readReg, Bank.hostWrite]

theorem Bank.hostWrite_readOnly {r : RegName} (hr : r ∈ RegName.readOnly) (b : Bank) (v : Word32) :
    b.hostWrite r v = b := by
  simp only [RegName.readOnly, List.mem_cons, List.not_mem_nil, or_false] at hr
  rcases hr with rfl | rfl | rfl <;> rfl

/-- Settles O16: the write is `Bank.hostWrite` in the port's bank. -/
theorem registerWriteThenRead : Obligations.RegisterWriteThenRead := by
  intro s k p b r v hp
  obtain ⟨hlt, hb⟩ := hp
  have written : r ≠ .op → s.serve k (.regWrite (regOffset p r) 4 v) = .next (s.setBank p (b.hostWrite r v)) :=
    State.regWrite_reg v hlt hb
  refine ⟨fun hr => ?_, fun hr => ?_⟩
  · refine ⟨_, b.hostWrite r v, written ?_, s.setBank_onlyBank p _, s.bank?_setBank_self p _ (State.bank?_lt hb),
      State.readReg_hostWrite_self hr b v, fun q hq => State.readReg_hostWrite_ne hq b v⟩
    rintro rfl; revert hr; decide
  · rw [written (by rintro rfl; revert hr; decide), Bank.hostWrite_readOnly hr, State.setBank_bank?_self hb]

/-- Settles O18: the write is `Bank.hostWrite`, which stores `truncAfterWrite`. -/
theorem statusWriteOneClearsTrunc : Obligations.StatusWriteOneClearsTrunc := by
  intro s k p b v hp
  obtain ⟨hlt, hb⟩ := hp
  have trunc_eq : truncAfterWrite b.trunc v = if v.getLsbD 1 then false else b.trunc := by
    unfold truncAfterWrite
    cases v.getLsbD 1 <;> simp
  refine ⟨_, State.regWrite_reg v hlt hb (by decide), ?_, s.setBank_onlyBank p _⟩
  rw [← trunc_eq]
  exact s.bank?_setBank_self p _ (State.bank?_lt hb)

/-! ## Offsets with no register, and accesses with no step (R30, R31, R54) -/

theorem regAccessOk_iff (off width : Nat) : regAccessOk off width = true ↔ width = 4 ∧ off % 4 = 0 := by
  simp [regAccessOk]

theorem dmemWidthOk_iff (width : Nat) : dmemWidthOk width = true ↔ width ∈ [1, 2, 4] := by
  simp [dmemWidthOk, or_assoc]

/-- The register accesses with no step are those of the wrong form (R31). -/
theorem regAccess_hasNoStep_iff (off width : Nat) : (width ≠ 4 ∨ off % 4 ≠ 0) ↔ regAccessOk off width = false := by
  rw [← Bool.not_eq_true, regAccessOk_iff, not_and_or]

/-- The DMEM accesses with no step are those of the wrong width and those past the end (R54). -/
theorem dmemAccess_hasNoStep_iff (cfg : Config) (addr width : Nat) :
    (width ∉ [1, 2, 4] ∨ cfg.dmemSize < addr + width) ↔
      (dmemWidthOk width = false ∨ pastDmem cfg addr width = true) := by
  rw [← Bool.not_eq_true, dmemWidthOk_iff, pastDmem_iff]

theorem State.regWrite_refused {off width : Nat} (v : Word32) (h : regAccessOk off width = false) :
    s.regWrite off width v = .refused (.registerAccess off width) := by
  simp [State.regWrite, h]

theorem State.regRead_refused {off width : Nat} (k : Nat) (h : regAccessOk off width = false) :
    s.regRead k off width = .refused (.registerAccess off width) := by
  simp [State.regRead, h]

theorem State.regWrite_none {off width : Nat} (v : Word32) (h : regAccessOk off width = true)
    (ha : s.regAt off = none) : s.regWrite off width v = .next s := by
  simp [State.regWrite, h, ha]

theorem State.regRead_none {off width : Nat} (k : Nat) (h : regAccessOk off width = true)
    (ha : s.regAt off = none) : s.regRead k off width = .next (s.reply k 0) := by
  simp [State.regRead, h, ha]

theorem RegName.offset_le (r : RegName) : r.offset ≤ 0x30 := by cases r <;> decide

/-- No register stands at a reserved offset, nor at or beyond `P_N_PORTS × 0x100` (R30). -/
theorem State.regAt_reserved {off : Nat} (h : 0x34 ≤ off % 0x100 ∨ s.cfg.nPorts * 0x100 ≤ off) :
    s.regAt off = none := by
  rw [Option.eq_none_iff_forall_ne_some]
  rintro ⟨p, b, r⟩ ha
  obtain ⟨hp, hlt, -, hr⟩ := State.regAt_eq_some.mp ha
  have hoff : off % 0x100 = r.offset := RegName.at?_eq_some.mp hr
  have hport : p = off / 0x100 := hp
  have := r.offset_le
  omega

/-- Settles O17: such an offset leads to no register. -/
theorem reservedOffsetsReadZero : Obligations.ReservedOffsetsReadZero := by
  intro s k off v hal hres
  have hok : regAccessOk off 4 = true := (regAccessOk_iff off 4).mpr ⟨rfl, hal⟩
  have hnone := State.regAt_reserved hres
  exact ⟨State.regWrite_none v hok hnone, State.regRead_none k hok hnone⟩

/-- A host register write of the right form has a next state, whatever the offset (R30, R219). -/
theorem State.regWrite_completes {off : Nat} (v : Word32) (h : regAccessOk off 4 = true) :
    ∃ t, s.regWrite off 4 v = .next t := by
  cases ha : s.regAt off with
  | none => exact ⟨s, State.regWrite_none v h ha⟩
  | some x =>
    obtain ⟨p, b, r⟩ := x
    obtain ⟨-, hlt, hb, -⟩ := State.regAt_eq_some.mp ha
    rw [State.off_of_regAt ha]
    by_cases hr : r = .op
    · subst hr
      rw [State.regWrite_op v hlt hb]
      exact State.runWord_completes v (s.issue_bank? p b v (State.bank?_lt hb))
    · exact ⟨_, State.regWrite_reg v hlt hb hr⟩

theorem State.regRead_completes {off : Nat} (k : Nat) (h : regAccessOk off 4 = true) :
    ∃ t, s.regRead k off 4 = .next t := by
  cases ha : s.regAt off with
  | none => exact ⟨_, State.regRead_none k h ha⟩
  | some x =>
    obtain ⟨p, b, r⟩ := x
    obtain ⟨-, hlt, hb, -⟩ := State.regAt_eq_some.mp ha
    rw [State.off_of_regAt ha]
    exact ⟨_, State.regRead_reg k r hlt hb⟩

/-- A DMEM access of the wrong width or past the end is refused, a write like a read (R54, R199). -/
theorem State.dmemAccess_refused {addr width : Nat}
    (h : dmemWidthOk width = false ∨ pastDmem s.cfg addr width = true) :
    ∃ x, (∀ v, s.dmemWrite addr width v = .refused x) ∧ ∀ k, s.dmemRead k addr width = .refused x := by
  cases hw : dmemWidthOk width with
  | false => exact ⟨.dmemWidth width, by simp [State.dmemWrite, hw], by simp [State.dmemRead, hw]⟩
  | true =>
    have hp : pastDmem s.cfg addr width = true := h.resolve_left (by simp [hw])
    exact ⟨.dmemRange addr width, by simp [State.dmemWrite, hw, hp], by simp [State.dmemRead, hw, hp]⟩

/-- Any other DMEM access has a next state, a write like a read (R54). -/
theorem State.dmemAccess_completes {addr width : Nat}
    (h : ¬ (dmemWidthOk width = false ∨ pastDmem s.cfg addr width = true)) :
    (∀ v, s.dmemWrite addr width v = .next (s.memWrite addr width v)) ∧
      ∀ k, s.dmemRead k addr width = .next (s.reply k (s.memRead addr width)) := by
  obtain ⟨hw, hp⟩ := not_or.mp h
  rw [Bool.not_eq_false] at hw
  rw [Bool.not_eq_true] at hp
  exact ⟨by simp [State.dmemWrite, hw, hp], by simp [State.dmemRead, hw, hp]⟩

/-- An access that has no step is refused (R199). -/
theorem State.serve_refused {r : Request} (k : Nat) (h : r.HasNoStep s.cfg) : ∃ x, s.serve k r = .refused x := by
  cases r with
  | regWrite off width v => exact ⟨_, State.regWrite_refused v ((regAccess_hasNoStep_iff off width).mp h)⟩
  | regRead off width => exact ⟨_, State.regRead_refused k ((regAccess_hasNoStep_iff off width).mp h)⟩
  | dmemWrite addr width v =>
    obtain ⟨x, hx, -⟩ := State.dmemAccess_refused ((dmemAccess_hasNoStep_iff s.cfg addr width).mp h)
    exact ⟨x, hx v⟩
  | dmemRead addr width =>
    obtain ⟨x, -, hx⟩ := State.dmemAccess_refused ((dmemAccess_hasNoStep_iff s.cfg addr width).mp h)
    exact ⟨x, hx k⟩

/-- Every other access has its next state (R219, R220). -/
theorem State.serve_completes {r : Request} (k : Nat) (h : ¬ r.HasNoStep s.cfg) : ∃ t, s.serve k r = .next t := by
  cases r with
  | regWrite off width v =>
    have hok : regAccessOk off width = true := by simpa using (regAccess_hasNoStep_iff off width).not.mp h
    cases regAccessOk_width hok
    exact State.regWrite_completes v hok
  | regRead off width =>
    have hok : regAccessOk off width = true := by simpa using (regAccess_hasNoStep_iff off width).not.mp h
    cases regAccessOk_width hok
    exact State.regRead_completes k hok
  | dmemWrite addr width v =>
    exact ⟨_, (State.dmemAccess_completes ((dmemAccess_hasNoStep_iff s.cfg addr width).not.mp h)).1 v⟩
  | dmemRead addr width =>
    exact ⟨_, (State.dmemAccess_completes ((dmemAccess_hasNoStep_iff s.cfg addr width).not.mp h)).2 k⟩

/-- Settles O10: an access that has no step is refused, any other has a next state, and neither is a fault. -/
theorem onlyMalformedAccessHasNoStep : Obligations.OnlyMalformedAccessHasNoStep := by
  intro s k r _
  by_cases hr : r.HasNoStep s.cfg
  · obtain ⟨x, hx⟩ := State.serve_refused k hr
    rw [hx]
    exact ⟨⟨fun _ => hr, fun _ => ⟨x, rfl⟩⟩, by simp⟩
  · obtain ⟨t, ht⟩ := State.serve_completes k hr
    rw [ht]
    exact ⟨⟨by simp, fun h => absurd h hr⟩, by simp⟩

end Sys2Proof.Machine
end

section
/-! PROOFS. Memory and events (spec/20_memory.md): the order in which requests are served. -/

namespace Sys2Proof.Machine

variable {s t u : State}

/-! ## A step and the request it picks (R60, R61) -/

/-- Settles O6: it is the turn of a requester with a request. -/
theorem stepServesThePickedRequest : Obligations.StepServesThePickedRequest :=
  fun _ _ _ _ _ ha hq => step_serve ha hq

/-- A turn of a requester with a request picks that request. -/
theorem State.nextRequest?_serve {k : Nat} {rest : List Turn} {r : Request} {qs : List (List Request)}
    (ha : s.agenda = .serve k :: rest) (hq : popStream s.streams k = some (r, qs)) :
    s.nextRequest? = some (k, r) := by
  simp [State.nextRequest?, ha, hq]

/-- A turn of a requester with nothing issued picks no request. -/
theorem State.nextRequest?_silent {k : Nat} {rest : List Turn} (ha : s.agenda = .serve k :: rest)
    (hq : popStream s.streams k = none) : s.nextRequest? = none := by
  simp [State.nextRequest?, ha, hq]

/-- The step performs the picked request wherever its event has a next state: an event touches neither the agenda nor
a stream. -/
theorem State.performs_of_serve {x : Nat × Request} {rest : List Turn} {q : List Request}
    (ha : s.agenda = .serve x.1 :: rest) (hq : s.streams[x.1]? = some (x.2 :: q))
    (hs : State.serve { s with agenda := rest, streams := s.streams.set x.1 q } x.1 x.2 = .next t) :
    s.Performs x t := by
  obtain ⟨-, hagenda, hstreams, -⟩ := State.serve_keeps hs
  exact ⟨rest, q, ha, hq, (step_serve ha hq).trans hs, hs, hagenda, hstreams⟩

/-- Everything a step can be, for the streams: it performs the request it picks, or it picks none and leaves every
stream, and then it takes a turn off the agenda or resets the block (log entries 9 and 14). -/
theorem step_performs_or_silent (h : step s = .next t) :
    (∃ x, s.nextRequest? = some x ∧ s.Performs x t) ∨
      (s.nextRequest? = none ∧ t.streams = s.streams ∧
        (t = { s with agenda := s.agenda.tail } ∨ ∃ rest, s.agenda = .reset :: rest ∧ t.agenda = rest)) := by
  obtain ⟨ha, hs⟩ | ⟨rest, ha, hs⟩ | ⟨k, rest, ha, hp, hs⟩ | ⟨k, rest, r, qs, ha, hp, hs⟩ := step_cases (s := s)
  · cases hs.symm.trans h
    exact .inr ⟨by simp [State.nextRequest?, ha], rfl, .inl (by rw [ha, List.tail_nil, ← ha])⟩
  · cases hs.symm.trans h
    exact .inr ⟨by simp [State.nextRequest?, ha], rfl, .inr ⟨rest, ha, rfl⟩⟩
  · cases hs.symm.trans h
    exact .inr ⟨State.nextRequest?_silent ha hp, rfl, .inl (by rw [ha, List.tail_cons])⟩
  · obtain ⟨q, hq, rfl⟩ := popStream_eq_some.mp hp
    exact .inl ⟨(k, r), State.nextRequest?_serve ha hp, State.performs_of_serve ha hq (hs.symm.trans h)⟩

/-! ## Issue order (R61) -/

/-- What requester `k` has issued of a list of requests, in its own order: stream `k` of `streamsOf`. -/
def issuedBy (k : Nat) (l : List (Nat × Request)) : List Request :=
  (l.filter (fun x => x.1 == k)).map (fun x => x.2)

@[simp] theorem issuedBy_nil (k : Nat) : issuedBy k [] = [] := rfl

@[simp] theorem issuedBy_cons_self (x : Nat × Request) (l : List (Nat × Request)) :
    issuedBy x.1 (x :: l) = x.2 :: issuedBy x.1 l := by
  simp [issuedBy]

theorem issuedBy_cons_ne {k : Nat} {x : Nat × Request} (h : x.1 ≠ k) (l : List (Nat × Request)) :
    issuedBy k (x :: l) = issuedBy k l := by
  simp [issuedBy, h]

/-- What the first `n` steps serve of a requester is the beginning of its stream: each step takes the head of one
stream, or leaves them all. -/
theorem State.served_prefix (n : Nat) (s : State) (k : Nat) :
    issuedBy k (s.served n) <+: (s.streams[k]?).getD [] := by
  induction n generalizing s with
  | zero => exact List.nil_prefix
  | succ n ih =>
    cases h : step s with
    | fault f => simp [State.served, h]
    | refused x => simp [State.served, h]
    | next t =>
      have hserved : s.served (n + 1) = s.nextRequest?.toList ++ t.served n := by simp only [State.served, h]
      rw [hserved]
      obtain ⟨x, hx, rest, q, -, hq, -, -, -, hstreams⟩ | ⟨hx, hstreams, -⟩ := step_performs_or_silent h
      · rw [hx, Option.toList_some, List.singleton_append]
        have htail := ih t
        rw [hstreams] at htail
        by_cases hk : x.1 = k
        · subst hk
          have hlt : x.1 < s.streams.length := (List.getElem?_eq_some_iff.mp hq).1
          rw [List.getElem?_set_self hlt, Option.getD_some] at htail
          rw [issuedBy_cons_self, hq, Option.getD_some]
          exact (List.prefix_cons_inj x.2).mpr htail
        · rw [issuedBy_cons_ne hk]
          rwa [List.getElem?_set_ne hk] at htail
      · rw [hx, Option.toList_none, List.nil_append, ← hstreams]
        exact ih t

/-- Settles O9: the clause of one step is what a step can be, and the clause of many is an induction over the steps. -/
theorem issueOrderIsKept : Obligations.IssueOrderIsKept :=
  ⟨fun _ _ => step_performs_or_silent, State.served_prefix⟩

/-! ## Every interleaving is a run (R60) -/

theorem getElem?_streamsOf {n k : Nat} (h : k < n) (l : List (Nat × Request)) :
    (streamsOf n l)[k]? = some (issuedBy k l) := by
  rw [streamsOf, List.getElem?_map, List.getElem?_range h]
  rfl

@[simp] theorem length_streamsOf (n : Nat) (l : List (Nat × Request)) : (streamsOf n l).length = n := by
  simp [streamsOf]

/-- Taking the first request of a list off its requester's stream leaves the streams of the rest of the list. -/
theorem streamsOf_cons_set {n : Nat} {x : Nat × Request} (h : x.1 < n) (l : List (Nat × Request)) :
    (streamsOf n (x :: l)).set x.1 (issuedBy x.1 l) = streamsOf n l := by
  apply List.ext_getElem?
  intro k
  rcases Nat.lt_or_ge k n with hk | hk
  · by_cases hxk : x.1 = k
    · subst hxk
      rw [List.getElem?_set_self (by simpa using h), getElem?_streamsOf h]
    · rw [List.getElem?_set_ne hxk, getElem?_streamsOf hk, getElem?_streamsOf hk, issuedBy_cons_ne hxk]
  · rw [List.getElem?_eq_none (by simpa using hk), List.getElem?_eq_none (by simpa using hk)]

/-- From a state that holds a list of requests in its streams, and their order in its agenda, the steps perform the
list. -/
theorem State.runOf_of_interleaving {n : Nat} (l : List (Nat × Request)) (ha : s.agenda = l.map (fun x => .serve x.1))
    (hq : s.streams = streamsOf n l) (hl : ∀ x ∈ l, x.1 < n ∧ ¬ x.2.HasNoStep s.cfg) :
    ∃ u, s.RunOf l u ∧ u.agenda = [] ∧ ∀ q ∈ u.streams, q = [] := by
  induction l generalizing s with
  | nil => exact ⟨s, rfl, ha, by simp [hq, streamsOf]⟩
  | cons x l ih =>
    obtain ⟨⟨hx, hstep⟩, hl⟩ := List.forall_mem_cons.mp hl
    have hhead : s.streams[x.1]? = some (x.2 :: issuedBy x.1 l) := by
      rw [hq, getElem?_streamsOf hx, issuedBy_cons_self]
    obtain ⟨t, ht⟩ := State.serve_completes
      (s := { s with agenda := l.map (fun x => .serve x.1), streams := s.streams.set x.1 (issuedBy x.1 l) }) x.1 hstep
    obtain ⟨hcfg, hagenda, hstreams, -⟩ := State.serve_keeps ht
    have htail : t.streams = streamsOf n l := by rw [hstreams, hq]; exact streamsOf_cons_set hx l
    obtain ⟨u, hrun, hend⟩ := ih hagenda htail (by rw [hcfg]; exact hl)
    exact ⟨u, ⟨t, State.performs_of_serve ha hhead ht, hrun⟩, hend⟩

/-- Settles O8: the agenda is the list's own order of requesters. -/
theorem everyInterleavingIsServed : Obligations.EveryInterleavingIsServed := by
  intro s n l _ hl
  obtain ⟨u, hu⟩ := State.runOf_of_interleaving
    (s := { s with agenda := l.map (fun x => .serve x.1), streams := streamsOf n l }) l rfl rfl hl
  exact ⟨_, u, hu⟩

end Sys2Proof.Machine
end

section
/-! PROOFS. Memory and events (spec/20_memory.md): DMEM as the host reads and writes it. -/

namespace Sys2Proof.Machine

variable {s t : State} {b : Bank}

/-! ## The bytes of a value (R12, R52) -/

/-- Byte `i` of the little-endian list of a word is its bits 8i+7 to 8i. -/
theorem getD_bytesLE_toNat {n i : Nat} (v : Word32) (h : i < n) :
    (bytesLE v.toNat n).getD i 0 = v.extractLsb' (8 * i) 8 := by
  have hpow : 256 ^ i = 2 ^ (8 * i) := (pow_mul 2 8 i).symm
  rw [List.getD_eq_getElem?_getD, getElem?_bytesLE v.toNat n i h, Option.getD_some, hpow, ← Nat.shiftRight_eq_div_pow]
  rfl

/-- The value of the low `n` bytes of a word is the word with its other bytes cleared. -/
theorem ofNat_valueLE_bytesLE {n : Nat} (v : Word32) (h : n ≤ 4) :
    BitVec.ofNat 32 (valueLE (bytesLE v.toNat n)) = v &&& BitVec.ofNat 32 (2 ^ (8 * n) - 1) := by
  have hpow : 256 ^ n = 2 ^ (8 * n) := (pow_mul 2 8 n).symm
  have hle : 2 ^ (8 * n) ≤ 2 ^ 32 := Nat.pow_le_pow_right (by decide) (by omega)
  have hmask : (2 ^ (8 * n) - 1) % 2 ^ 32 = 2 ^ (8 * n) - 1 :=
    Nat.mod_eq_of_lt (by have := Nat.two_pow_pos (8 * n); omega)
  have hlow : v.toNat % 2 ^ (8 * n) % 2 ^ 32 = v.toNat % 2 ^ (8 * n) :=
    Nat.mod_eq_of_lt (Nat.lt_of_le_of_lt (Nat.mod_le _ _) v.isLt)
  apply BitVec.eq_of_toNat_eq
  rw [valueLE_bytesLE, hpow, BitVec.toNat_and, BitVec.toNat_ofNat, BitVec.toNat_ofNat, hmask, hlow,
    Nat.and_two_pow_sub_one_eq_mod]

/-! ## A write and the next read (R52, R54, R62) -/

/-- What each address reads as after the low `n` bytes of a value are written (R11). -/
theorem State.memByte_memWrite (h : Memory.wf s.dmem) (addr n : Nat) (v : Word32) (a : Nat) :
    (s.memWrite addr n v).memByte a =
      if addr ≤ a ∧ a < addr + n then v.extractLsb' (8 * (a - addr)) 8 else s.memByte a := by
  rw [State.memWrite, State.memByte_memWriteBytes s addr a _ h, length_bytesLE]
  by_cases ha : addr ≤ a ∧ a < addr + n
  · rw [if_pos ha, if_pos ha, getD_bytesLE_toNat v (by omega)]
  · rw [if_neg ha, if_neg ha]

/-- A byte list reads back as it was written (R11, R62). -/
theorem State.memBytes_memWriteBytes (h : Memory.wf s.dmem) (a : Nat) (l : List Byte) :
    (s.memWriteBytes a l).memBytes a l.length = l := by
  apply List.ext_getElem
  · exact State.length_memBytes _ a l.length
  · intro i _ hi
    simp only [State.memBytes, List.getElem_map, List.getElem_range, State.memByte_memWriteBytes s a _ l h]
    rw [if_pos ⟨by omega, by omega⟩, Nat.add_sub_cancel_left, List.getD_eq_getElem l 0 hi]

/-- The low `n` bytes of a value read back zero-extended (log entry 15). -/
theorem State.memRead_memWrite {n : Nat} (h : Memory.wf s.dmem) (addr : Nat) (v : Word32) (hn : n ≤ 4) :
    (s.memWrite addr n v).memRead addr n = v &&& BitVec.ofNat 32 (2 ^ (8 * n) - 1) := by
  have hback := State.memBytes_memWriteBytes h addr (bytesLE v.toNat n)
  rw [length_bytesLE] at hback
  rw [State.memRead, State.memWrite, hback, ofNat_valueLE_bytesLE v hn]

/-- Settles O11: the access has its step, the write is `State.memWrite`, and the read is of the bytes it wrote. -/
theorem hostDmemWriteThenRead : Obligations.HostDmemWriteThenRead := by
  intro s k j addr width v hwf hwidth hrange
  have hok : ¬ (dmemWidthOk width = false ∨ pastDmem s.cfg addr width = true) := by
    rw [← dmemAccess_hasNoStep_iff, not_or, not_not]
    exact ⟨hwidth, by omega⟩
  have hle : width ≤ 4 := by
    simp only [List.mem_cons, List.not_mem_nil, or_false] at hwidth
    omega
  refine ⟨s.memWrite addr width v, (State.dmemAccess_completes hok).1 v, rfl,
    State.memByte_memWrite hwf addr width v, ?_⟩
  rw [← State.memRead_memWrite hwf addr v hle]
  exact (State.dmemAccess_completes (s := s.memWrite addr width v) hok).2 j

/-! ## Mixed widths (R53) -/

/-- A one-byte read, as a byte, is the byte. -/
@[simp] theorem State.setWidth_memRead_one (s : State) (a : Nat) : (s.memRead a 1).setWidth 8 = s.memByte a := by
  have := (s.memByte a).isLt
  apply BitVec.eq_of_toNat_eq
  simp only [State.memRead, State.memBytes, List.range_one, List.map_cons, List.map_nil, valueLE, Nat.add_zero,
    Nat.mul_zero, BitVec.toNat_setWidth, BitVec.toNat_ofNat]
  omega

/-- A read of at most 4 bytes is their value: it fits the word (R11, R54). -/
theorem State.toNat_memRead {n : Nat} (s : State) (a : Nat) (h : n ≤ 4) :
    (s.memRead a n).toNat = valueLE (s.memBytes a n) := by
  have hlt := valueLE_lt (s.memBytes a n)
  rw [State.length_memBytes] at hlt
  exact Nat.mod_eq_of_lt (Nat.lt_of_lt_of_le hlt (Nat.pow_le_pow_right (n := 256) (by decide) h))

/-- Settles O12: both sides have the value of the same bytes. -/
theorem mixedWidthReadsAreLittleEndian : Obligations.MixedWidthReadsAreLittleEndian := by
  intro s a
  simp only [State.setWidth_memRead_one]
  refine ⟨BitVec.eq_of_toNat_eq ?_, BitVec.eq_of_toNat_eq ?_⟩
  · rw [State.toNat_memRead s a (by decide), toNat_le32]
    rfl
  · rw [State.toNat_memRead s a (by decide), BitVec.toNat_setWidth_of_le (by decide), toNat_le16]
    rfl

/-! ## Reads (R57) -/

theorem State.regRead_next {k off width : Nat} (h : s.regRead k off width = .next t) : ∃ v, t = s.reply k v := by
  unfold State.regRead at h
  split at h
  · cases h
  · split at h
    · cases h; exact ⟨_, rfl⟩
    · cases h; exact ⟨_, rfl⟩

theorem State.dmemRead_next {k addr width : Nat} (h : s.dmemRead k addr width = .next t) : ∃ v, t = s.reply k v := by
  by_cases hok : dmemWidthOk width = false ∨ pastDmem s.cfg addr width = true
  · obtain ⟨x, -, hx⟩ := State.dmemAccess_refused hok
    cases (hx k).symm.trans h
  · cases ((State.dmemAccess_completes hok).2 k).symm.trans h
    exact ⟨_, rfl⟩

/-- Settles O14: a read that has a step gives a reply. -/
theorem readsHaveNoSideEffect : Obligations.ReadsHaveNoSideEffect := by
  rintro s t k r (⟨off, width, rfl⟩ | ⟨addr, width, rfl⟩) h
  · exact State.regRead_next h
  · exact State.dmemRead_next h

/-! ## What changes a byte (R60, R62, R67) -/

/-- A byte changes by an operation only where it is a PKT_BUILD's frame byte. -/
theorem exec_memByte {i : Instr} {a : Nat} (hwf : Memory.wf s.dmem) (hb : s.bank? s.issuer = some b)
    (h : exec i s = .next t) (ha : t.memByte a ≠ s.memByte a) :
    ∃ d, i = .pktBuild d ∧ b.dst.toNat ≤ a ∧ a < b.dst.toNat + (12 + b.declaredLength d) := by
  obtain ⟨b', hb', ⟨e, rfl, -⟩ | ⟨u, c, rfl, -, -, rfl | rfl | ⟨d, hi, -, rfl⟩⟩⟩ := exec_cases h
  · exact absurd (s.memByte_setBank _ _ a) ha
  · exact absurd (u.memByte_setBank _ _ a) ha
  · exact absurd (s.memByte_ensureTable a) ha
  · cases hb.symm.trans hb'
    have hwritten := State.memByte_memWriteBytes s b.dst.toNat a (buildFrame s b d) hwf
    rw [length_buildFrame] at hwritten
    by_cases hr : b.dst.toNat ≤ a ∧ a < b.dst.toNat + (12 + b.declaredLength d)
    · exact ⟨d, hi, hr⟩
    · rw [if_neg hr] at hwritten
      exact absurd hwritten ha

/-- A byte changes by an event only where the event is a DMEM write of it or the OP write of a PKT_BUILD whose frame
holds it. -/
theorem State.serve_memByte {k a : Nat} {r : Request} (hwf : Memory.wf s.dmem) (h : s.serve k r = .next t)
    (ha : t.memByte a ≠ s.memByte a) :
    (∃ addr width v, r = .dmemWrite addr width v ∧ addr ≤ a ∧ a < addr + width) ∨
      ∃ p b v d, r = .regWrite (regOffset p .op) 4 v ∧ s.HasPort p b ∧ decode v = .instr (.pktBuild d) ∧
        b.dst.toNat ≤ a ∧ a < b.dst.toNat + (12 + b.declaredLength d) := by
  obtain rfl | ⟨v, rfl⟩ | ⟨p, b, reg, v, -, -, -, -, rfl⟩ | ⟨p, b, v, hr, hb, hlt, hw⟩ |
    ⟨addr, width, v, hr, -, -, rfl⟩ :=
    State.serve_cases h
  · exact absurd rfl ha
  · exact absurd rfl ha
  · exact absurd rfl ha
  · obtain ⟨i, hd, he⟩ | ⟨-, c, -, rfl⟩ := State.runWord_cases hw
    · have hissued : (s.issue p b v).bank? (s.issue p b v).issuer = some (b.hostWrite .op v) :=
        s.issue_bank? p b v (State.bank?_lt hb)
      obtain ⟨d, rfl, hrange⟩ := exec_memByte (s := s.issue p b v) hwf hissued he ha
      exact .inr ⟨p, b, v, d, hr, ⟨hlt, hb⟩, hd, hrange⟩
    · exact absurd rfl ha
  · rw [State.memByte_memWrite hwf] at ha
    by_cases hrange : addr ≤ a ∧ a < addr + width
    · exact .inl ⟨addr, width, v, hr, hrange⟩
    · exact absurd (if_neg hrange) ha

/-- Settles O13: a turn that passes changes no byte, and the event of one that serves is one of the two. -/
theorem byteChangesOnlyByAWriteToIt : Obligations.ByteChangesOnlyByAWriteToIt := by
  intro s t a hwf h ha
  obtain rfl | ⟨rest, hagenda, -⟩ | ⟨k, r, rest, qs, hr, hs⟩ := step_next_cases h
  · exact absurd rfl ha
  · exact .inl ⟨rest, hagenda⟩
  · obtain ⟨addr, width, v, rfl, hrange⟩ | ⟨p, b, v, d, rfl, hp, hd, hrange⟩ :=
      State.serve_memByte (s := { s with agenda := rest, streams := qs }) hwf hs ha
    · exact .inr (.inl ⟨k, addr, width, v, hr, hrange⟩)
    · exact .inr (.inr ⟨k, p, b, v, d, hr, hp, hd, hrange⟩)

end Sys2Proof.Machine
end

section
/-! PROOFS. Memory and events (spec/20_memory.md): range errors, and operations of two ports. -/

namespace Sys2Proof.Machine

variable {s t : State} {p q : Nat} {b c : Bank} {f g : State → State}

/-! ## Range errors (R56, R111, R183) -/

/-- An operation that ends in `State.raise` reports its error and changes nothing else (R184). -/
theorem ReportsOnly.of_raise {i : Instr} {e : OpError} (hb : s.bank? s.issuer = some b)
    (h : exec i s = .next (s.raise b e)) : ReportsOnly i s b e.causeWord :=
  ⟨_, h, State.raise_bank? hb, s.setBank_onlyBank s.issuer _⟩

/-- Settles O25: each of the three checks its range before it does anything else. -/
theorem sourceRangeErrorIsReported : Obligations.SourceRangeErrorIsReported := by
  intro i s b hi hb hr
  have raised : exec i s = .next (s.raise b (.memRange .read)) := by
    simp only [List.mem_cons, List.not_mem_nil, or_false] at hi
    rcases hi with rfl | rfl | rfl
    · exact exec_crcBufS_range hb hr
    · exact exec_crcBufT_range hb hr
    · exact exec_pktValidate_range hb hr
  exact .of_raise hb raised

/-! ## What an operation depends on (R75, R216) -/

/-- The two states give an operation the same shared operands: the configuration, what DMEM reads as, and the table as
`EnsureTable` leaves it. -/
structure SameShared (s t : State) : Prop where
  cfg : t.cfg = s.cfg
  memBytes : ∀ a n, t.memBytes a n = s.memBytes a n
  table : t.ensureTable.dtab = s.ensureTable.dtab

/-- What an operation does to the shared state before it writes registers: nothing, `EnsureTable`, or for PKT_BUILD the
write of a frame. -/
def Prepares (i : Instr) (f : State → State) : Prop :=
  f = id ∨ f = State.ensureTable ∨ ∃ d a l, i = .pktBuild d ∧ f = fun s => s.memWriteBytes a l

theorem SameShared.refl (s : State) : SameShared s s := ⟨rfl, fun _ _ => rfl, rfl⟩

theorem SameShared.buildPayload_eq (h : SameShared s t) (b : Bank) (d : Bool) :
    buildPayload t b d = buildPayload s b d := by
  simp only [buildPayload, h.memBytes]

theorem SameShared.buildFrame_eq (h : SameShared s t) (b : Bank) (d : Bool) : buildFrame t b d = buildFrame s b d := by
  simp only [buildFrame, h.buildPayload_eq]

/-- What an operation does to the shared state, and the bank it leaves, follow from the issuing port's bank and the
shared operands alone. -/
theorem exec_determined (s : State) (b : Bank) (i : Instr) :
    ∃ f c, Prepares i f ∧ ∀ t : State, SameShared s t → t.bank? t.issuer = some b →
      exec i t = .next ((f t).setBank t.issuer c) := by
  have kept : Prepares i id := .inl rfl
  have ensured : Prepares i State.ensureTable := .inr (.inl rfl)
  cases i with
  | crcStart => exact ⟨id, _, kept, fun t h hb => by rw [exec_crcStart hb, h.cfg]; rfl⟩
  | crcWordS w => exact ⟨id, _, kept, fun t h hb => by rw [exec_crcWordS hb, h.cfg]; rfl⟩
  | crcWordT w =>
    exact ⟨_, _, ensured, fun t h hb => by
      rw [exec_crcWordT hb, h.cfg, h.table, State.succeed_eq, State.ensureTable_issuer]⟩
  | crcBufS =>
    rcases Nat.lt_or_ge s.cfg.dmemSize (b.src.toNat + b.len.toNat) with hr | hr
    · exact ⟨id, _, kept, fun t h hb => exec_crcBufS_range hb (h.cfg ▸ hr)⟩
    · exact ⟨id, _, kept, fun t h hb => by rw [exec_crcBufS hb (h.cfg ▸ hr), h.cfg, h.memBytes]; rfl⟩
  | crcBufT =>
    rcases Nat.lt_or_ge s.cfg.dmemSize (b.src.toNat + b.len.toNat) with hr | hr
    · exact ⟨id, _, kept, fun t h hb => exec_crcBufT_range hb (h.cfg ▸ hr)⟩
    · exact ⟨_, _, ensured, fun t h hb => by
        rw [exec_crcBufT hb (h.cfg ▸ hr), h.cfg, h.memBytes, h.table, State.succeed_eq, State.ensureTable_issuer]⟩
  | tblInit =>
    exact ⟨_, _, ensured, fun t _ hb => by rw [exec_tblInit hb, State.succeed_eq, State.ensureTable_issuer]⟩
  | tblRead w =>
    exact ⟨_, _, ensured, fun t h hb => by
      rw [exec_tblRead hb, h.table, State.succeed_eq, State.ensureTable_issuer]⟩
  | pktBuild d =>
    cases he : buildError s.cfg b d with
    | some e => exact ⟨id, _, kept, fun t h hb => exec_pktBuild_error hb (h.cfg ▸ he)⟩
    | none =>
      have valid : validFrame (buildFrame s b d) = true := validFrame_frame _ _ _ _
      exact ⟨_, _, .inr (.inr ⟨d, b.dst.toNat, buildFrame s b d, rfl, rfl⟩), fun t h hb => by
        rw [exec_pktBuild hb (h.cfg ▸ he) (h.buildFrame_eq b d ▸ valid), h.buildFrame_eq, h.buildPayload_eq]; rfl⟩
  | pktValidate =>
    rcases Nat.lt_or_ge s.cfg.dmemSize (b.src.toNat + b.len.toNat) with hr | hr
    · exact ⟨id, _, kept, fun t h hb => exec_pktValidate_range hb (h.cfg ▸ hr)⟩
    · exact ⟨id, _, kept, fun t h hb => by rw [exec_pktValidate hb (h.cfg ▸ hr), h.memBytes]; rfl⟩

/-! ## Operations of two ports (R64, R216) -/

/-- What an operation that writes no DMEM does to the shared state before it writes registers. -/
def TouchesTableOnly (f : State → State) : Prop := f = id ∨ f = State.ensureTable

theorem Prepares.touchesTableOnly {i : Instr} (h : Prepares i f) (hi : ∀ d, i ≠ .pktBuild d) : TouchesTableOnly f := by
  obtain hf | hf | ⟨d, -, -, hd, -⟩ := h
  · exact .inl hf
  · exact .inr hf
  · exact absurd hd (hi d)

/-- A built table is left as it is (R111). -/
theorem TouchesTableOnly.of_valid (h : TouchesTableOnly f) (hs : s.tvalid = true) : f s = s := by
  rcases h with rfl | rfl
  · rfl
  · exact State.ensureTable_of_valid hs

/-- The table is built at most once, by whichever comes first (R64). -/
theorem TouchesTableOnly.comm (hf : TouchesTableOnly f) (hg : TouchesTableOnly g) (s : State) : f (g s) = g (f s) := by
  rcases hf with rfl | rfl <;> rcases hg with rfl | rfl <;> rfl

theorem TouchesTableOnly.setBank (h : TouchesTableOnly f) (s : State) (p : Nat) (b : Bank) :
    f (s.setBank p b) = (f s).setBank p b := by
  rcases h with rfl | rfl
  · rfl
  · exact s.ensureTable_setBank p b

/-- `EnsureTable` does not look at the issuer. -/
theorem State.ensureTable_withIssuer (s : State) (p : Nat) :
    ({ s with issuer := p } : State).ensureTable = { s.ensureTable with issuer := p } := by
  cases h : s.tvalid <;> simp [State.ensureTable, h]

theorem TouchesTableOnly.withIssuer (h : TouchesTableOnly f) (s : State) (p : Nat) :
    f { s with issuer := p } = { f s with issuer := p } := by
  rcases h with rfl | rfl
  · rfl
  · exact s.ensureTable_withIssuer p

theorem TouchesTableOnly.bank? (h : TouchesTableOnly f) (s : State) (p : Nat) : (f s).bank? p = s.bank? p := by
  rcases h with rfl | rfl
  · rfl
  · exact s.ensureTable_bank? p

/-- The other banks and the issuer are no shared operand, and neither is whether the table is built already: the
operation that needs it builds it. -/
theorem TouchesTableOnly.sameShared (h : TouchesTableOnly f) (s : State) (p : Nat) (b : Bank) :
    SameShared s ((f s).setBank p b) := by
  rcases h with rfl | rfl
  · exact ⟨rfl, fun _ _ => rfl, by rw [State.ensureTable_setBank]; rfl⟩
  · exact ⟨s.ensureTable_cfg, s.memBytes_ensureTable,
      by rw [State.ensureTable_of_valid (s := s.ensureTable.setBank p b) s.ensureTable_tvalid]; rfl⟩

/-- `exec_determined` for an operation that writes no DMEM, run by port `p`. -/
theorem exec_byPort (s : State) (p : Nat) (b : Bank) {i : Instr} (hi : ∀ d, i ≠ .pktBuild d) :
    ∃ f c, TouchesTableOnly f ∧ ∀ t : State, SameShared s t → t.bank? p = some b →
      exec i { t with issuer := p } = .next { (f t).setBank p c with issuer := p } := by
  obtain ⟨f, c, hf, hrun⟩ := exec_determined s b i
  have hf := hf.touchesTableOnly hi
  refine ⟨f, c, hf, fun t h hb => ?_⟩
  have issued : SameShared s { t with issuer := p } :=
    ⟨h.cfg, h.memBytes, by rw [State.ensureTable_withIssuer]; exact h.table⟩
  rw [hrun _ issued hb, hf.withIssuer]
  rfl

/-- Settles O39: what each operation does to the table and the bank it leaves are the same in either order, the two
table effects commute, and so do the writes of two banks. -/
theorem tableOperationsCommute : Obligations.TableOperationsCommute := by
  intro s p q b c i j hpq hb hc hi hj
  obtain ⟨f, b', hf, run_i⟩ := exec_byPort s p b hi
  obtain ⟨g, c', hg, run_j⟩ := exec_byPort s q c hj
  have hc' : ((f s).setBank p b').bank? q = some c := by rw [State.bank?_setBank_ne _ _ hpq.symm, hf.bank?, hc]
  have hb' : ((g s).setBank q c').bank? p = some b := by rw [State.bank?_setBank_ne _ _ hpq, hg.bank?, hb]
  have same : (g ((f s).setBank p b')).setBank q c' = (f ((g s).setBank q c')).setBank p b' := by
    rw [hg.setBank, hf.setBank, hg.comm hf, State.setBank_comm _ _ _ hpq]
  refine ⟨_, _, _, _, run_i s (.refl s) hb, run_j ((f s).setBank p b') (hf.sameShared s p b') hc', run_j s (.refl s) hc,
    run_i ((g s).setBank q c') (hg.sameShared s q c') hb', congrArg (fun u : State => { u with issuer := 0 }) same,
    fun hv => ?_, fun hv => ?_⟩
  · rw [hg.of_valid (s := (f s).setBank p b') hv]
    exact ⟨hv, rfl, rfl⟩
  · rw [hf.of_valid (s := (g s).setBank q c') hv]
    exact ⟨hv, rfl, rfl⟩

end Sys2Proof.Machine
end

section
/-! PROOFS. Encoding (spec/30_encoding.md): the operation word. The encoder and the decoder are inverse, and the words
R76 lists are the words that are no operation's. -/

namespace Sys2Proof

variable {v : Word32} {i : Instr}

/-! ## The decoder and the rows a word matches (R73, R77) -/

/-- The decoder answers with the first of the operations that the rows a word matches read from it, if any row does. -/
theorem decodeRows_eq_head? (rows : List OpRow) (v : Word32) :
    (decodeRows rows v).instr? = ((rows.filter (fun r => r.hit v)).map (fun r => r.operation v)).head? := by
  induction rows with
  | nil => rfl
  | cons r rows ih =>
    cases hr : r.hit v with
    | true => simp [decodeRows, hr, Decoded.instr?]
    | false => simp [decodeRows, hr, ih]

theorem Decoded.instr?_eq_some {x : Decoded} : x.instr? = some i ↔ x = .instr i := by
  cases x <;> simp [Decoded.instr?]

theorem Decoded.instr?_eq_none {x : Decoded} : x.instr? = none ↔ x = .illegalOp := by
  cases x <;> simp [Decoded.instr?]

/-- A word is illegal iff it matches no row (R77). -/
theorem decode_eq_illegalOp_iff : decode v = .illegalOp ↔ opcodeTable.filter (fun r => r.hit v) = [] := by
  rw [← Decoded.instr?_eq_none, decode, decodeRows_eq_head?, List.head?_eq_none_iff, List.map_eq_nil_iff]

/-- Each operation's word matches one row alone, and that row reads the operation back (R73). -/
theorem rowMatch (i : Instr) : Laws.RowMatch.Statement i := by
  cases i with
  | crcStart => exact Laws.RowMatch.crcStart
  | crcWordS imm => exact Laws.RowMatch.crcWordS imm
  | crcWordT imm => exact Laws.RowMatch.crcWordT imm
  | crcBufS => exact Laws.RowMatch.crcBufS
  | crcBufT => exact Laws.RowMatch.crcBufT
  | tblInit => exact Laws.RowMatch.tblInit
  | tblRead imm => exact Laws.RowMatch.tblRead imm
  | pktBuild d => exact Laws.RowMatch.pktBuild d
  | pktValidate => exact Laws.RowMatch.pktValidate

/-- The decoder undoes the encoder (R73, R77). -/
theorem decode_encode (i : Instr) : decode (encode i) = .instr i := by
  have one : (opcodeTable.filter (fun r => r.hit (encode i))).map (fun r => r.operation (encode i)) = [i] := rowMatch i
  rw [← Decoded.instr?_eq_some, decode, decodeRows_eq_head?, one, List.head?_cons]

/-- A 32-bit word's number names that word (R78). -/
theorem decodeTableWord_toNat (v : Word32) : decodeTableWord 32 v.toNat = (decode v).instr? := by
  have hlt : v.toNat % 2 ^ 32 = v.toNat := Nat.mod_eq_of_lt v.isLt
  simp only [decodeTableWord, hlt, v.isLt, if_true, BitVec.ofNat_toNat, BitVec.setWidth_eq]

/-- Settles O1: the word of an operation matches the operation's row alone, and the number of a word names that word. -/
theorem decodeOfEncode : Obligations.DecodeOfEncode := fun i _ =>
  ⟨decode_encode i, by rw [decodeTableWord_toNat, decode_encode, Decoded.instr?]⟩

/-- Settles O4: each word is the word of its operation. -/
theorem writtenOutWordsDecode : Obligations.WrittenOutWordsDecode :=
  ⟨decode_encode .crcStart, decode_encode (.crcWordS 0x0201#16), decode_encode (.tblRead 0x8000#16),
    decode_encode (.pktBuild false), decode_encode (.pktBuild true), decode_encode .pktValidate⟩

/-! ## The fields of a word (R71) -/

section Fields
variable (imm : Word16) (d : Bool) (opc : BitVec 8)

theorem fieldOpc_opWord : fieldOpc (opWord imm d opc) = opc := by
  have := opc.isLt
  apply BitVec.eq_of_toNat_eq
  rw [toNat_fieldOpc, toNat_opWord]
  omega

theorem fieldRsv_opWord : fieldRsv (opWord imm d opc) = 0 := by
  have := opc.isLt
  have := Bool.toNat_le d
  apply BitVec.eq_of_toNat_eq
  rw [toNat_fieldRsv, toNat_opWord, show (0 : BitVec 7).toNat = 0 from rfl]
  omega

theorem fieldD_opWord : fieldD (opWord imm d opc) = d := by
  have := opc.isLt
  cases d with
  | true => rw [fieldD_eq_true, toNat_opWord, Bool.toNat_true]; omega
  | false => rw [fieldD_eq_false, toNat_opWord, Bool.toNat_false]; omega

theorem fieldImm_opWord : fieldImm (opWord imm d opc) = imm := by
  have := opc.isLt
  have := Bool.toNat_le d
  apply BitVec.eq_of_toNat_eq
  rw [toNat_fieldImm, toNat_opWord]
  omega

end Fields

/-- A word with RSV 0 is put together again from its other three fields. -/
theorem opWord_fields (h : fieldRsv v = 0) : opWord (fieldImm v) (fieldD v) (fieldOpc v) = v := by
  have hrsv : v.toNat / 512 % 128 = 0 := by rw [← toNat_fieldRsv, h]; rfl
  apply BitVec.eq_of_toNat_eq
  rw [toNat_opWord, toNat_fieldImm, toNat_fieldOpc]
  cases hd : fieldD v with
  | true => rw [fieldD_eq_true] at hd; rw [Bool.toNat_true]; omega
  | false => rw [fieldD_eq_false] at hd; rw [Bool.toNat_false]; omega

/-! ## Each word has one meaning (R73) -/

/-- A word that matches a row for an opcode with an immediate is that opcode's word with its own immediate. -/
theorem opWord_fieldImm_of_hit {p : Word32} {opc : BitVec 8} {f : Word32 → Instr} (hp : p.toNat = opc.toNat)
    (h : (OpRow.mk 0x0000FFFF#32 p f).hit v = true) : opWord (fieldImm v) false opc = v := by
  have hlow := hit_low.mp h
  apply BitVec.eq_of_toNat_eq
  rw [toNat_opWord, toNat_fieldImm, Bool.toNat_false]
  omega

/-- A word that matches a row is the word of the operation that the row reads from it: no bit is left unread. -/
theorem encode_operation_of_hit : ∀ r ∈ opcodeTable, r.hit v = true → encode (r.operation v) = v := by
  have build : v = 0x00000010#32 ∨ v = 0x00000110#32 → encode (.pktBuild (fieldD v)) = v := by
    rintro (rfl | rfl) <;> rfl
  simp only [opcodeTable, List.forall_mem_cons, hit_full, hit_build, List.not_mem_nil, false_imp_iff, implies_true]
  exact ⟨Eq.symm, opWord_fieldImm_of_hit rfl, opWord_fieldImm_of_hit rfl, Eq.symm, Eq.symm, Eq.symm,
    opWord_fieldImm_of_hit rfl, build, Eq.symm, trivial⟩

/-- What the decoder answers with was read by a row that the word matches. -/
theorem exists_hit_of_decode (h : decode v = .instr i) : ∃ r ∈ opcodeTable, r.hit v = true ∧ r.operation v = i := by
  rw [← Decoded.instr?_eq_some, decode, decodeRows_eq_head?] at h
  obtain ⟨r, hr, hi⟩ := List.mem_map.mp (List.mem_of_head? h)
  obtain ⟨hmem, hhit⟩ := List.mem_filter.mp hr
  exact ⟨r, hmem, hhit, hi⟩

/-- Settles O2: an operation is read by a row the word matches, and that row leaves no bit of the word unread. -/
theorem encodeOfDecode : Obligations.EncodeOfDecode := by
  intro v i h
  obtain ⟨r, hr, hhit, rfl⟩ := exists_hit_of_decode h
  exact encode_operation_of_hit r hr hhit

/-! ## The words R76 lists -/

/-- The words R76 does not list, by the form of their fields: RSV 0, D only in PKT_BUILD, IMM only in the operations
that take one. -/
theorem not_illegalFields_iff :
    ¬ Machine.IllegalFields v ↔
      fieldOpc v ∈ [0x01#8, 0x02#8, 0x03#8, 0x04#8, 0x05#8, 0x06#8, 0x07#8, 0x10#8, 0x11#8] ∧ fieldRsv v = 0 ∧
        (fieldOpc v ≠ 0x10#8 → fieldD v = false) ∧ (fieldOpc v ∉ [0x02#8, 0x03#8, 0x07#8] → fieldImm v = 0) := by
  simp only [Machine.IllegalFields, not_or, not_and, not_not, ne_eq, ← Bool.not_eq_true, not_imp_comm]

/-- The word of an operation is none of those R76 lists. -/
theorem not_illegalFields_encode (i : Instr) : ¬ Machine.IllegalFields (encode i) := by
  rw [not_illegalFields_iff]
  cases i <;> simp [encode, fieldOpc_opWord, fieldRsv_opWord, fieldD_opWord, fieldImm_opWord]

/-- A word R76 does not list is the word of an operation: OPC says which, and D and IMM are its operands. -/
theorem exists_encode_eq (h : ¬ Machine.IllegalFields v) : ∃ i, encode i = v := by
  obtain ⟨hopc, hrsv, hd, himm⟩ := not_illegalFields_iff.mp h
  have hv := opWord_fields hrsv
  generalize fieldOpc v = opc at hopc hd himm hv
  simp only [List.mem_cons, List.not_mem_nil, or_false] at hopc
  rcases hopc with rfl | rfl | rfl | rfl | rfl | rfl | rfl | rfl | rfl
  · rw [hd (by decide), himm (by decide)] at hv; exact ⟨.crcStart, hv⟩
  · rw [hd (by decide)] at hv; exact ⟨.crcWordS _, hv⟩
  · rw [hd (by decide)] at hv; exact ⟨.crcWordT _, hv⟩
  · rw [hd (by decide), himm (by decide)] at hv; exact ⟨.crcBufS, hv⟩
  · rw [hd (by decide), himm (by decide)] at hv; exact ⟨.crcBufT, hv⟩
  · rw [hd (by decide), himm (by decide)] at hv; exact ⟨.tblInit, hv⟩
  · rw [hd (by decide)] at hv; exact ⟨.tblRead _, hv⟩
  · rw [himm (by decide)] at hv; exact ⟨.pktBuild _, hv⟩
  · rw [hd (by decide), himm (by decide)] at hv; exact ⟨.pktValidate, hv⟩

/-- Settles O3: a word is one R76 lists, matched by no row, or an operation's word, matched by that operation's row
alone. -/
theorem legalWordMatchesExactlyOneRow : Obligations.LegalWordMatchesExactlyOneRow := by
  intro v
  constructor
  · intro illegal
    have hdec : decode v = .illegalOp := by
      cases h : decode v with
      | illegalOp => rfl
      | instr i => exact absurd illegal (encodeOfDecode v i h ▸ not_illegalFields_encode i)
    exact ⟨List.length_eq_zero_iff.mpr (decode_eq_illegalOp_iff.mp hdec), hdec⟩
  · intro legal
    obtain ⟨i, rfl⟩ := exists_encode_eq legal
    have one := congrArg List.length (rowMatch i)
    rw [List.length_map] at one
    obtain ⟨r, hr, hhit, hi⟩ := exists_hit_of_decode (decode_encode i)
    exact ⟨one, r, hr, hhit, by rw [hi, decode_encode]⟩

end Sys2Proof
end

section
/-! PROOFS. Encoding (spec/30_encoding.md): the request frame, field by field, and PKT_BUILD that writes it. -/

namespace Sys2Proof.Machine

/-! ## The fields of a frame (R81, R82, R83, R144) -/

section Frame
variable (c : Byte) (addr : Word32) {l : Nat} {q : List Byte}

/-- The bytes before the checksum are few enough that their sum never wraps (R144). -/
theorem byteSum_frameHead_le (hl : l ≤ 0xFFFF) (hq : q.length = l) : byteSum (frameHead c addr l q) ≤ 16713465 := by
  have hle := byteSum_le (frameHead c addr l q)
  rw [length_frameHead, hq] at hle
  omega

/-- So the checksum is the sum of the bytes before it, exactly. -/
theorem toNat_sum32_frameHead (hl : l ≤ 0xFFFF) (hq : q.length = l) :
    (sum32 (frameHead c addr l q)).toNat = byteSum (frameHead c addr l q) := by
  have hle := byteSum_frameHead_le c addr hl hq
  rw [toNat_sum32]
  omega

/-- The checksum read back from its place in the frame (R143). -/
theorem le32At_frame (hq : q.length = l) : le32At (frame c addr l q) (8 + l) = sum32 (frameHead c addr l q) := by
  rw [frame_eq, ← hq, ← length_frameHead c addr q.length q, le32At_append_bytesLE]

end Frame

/-- Settles O53: the head's fields stand one after the other, and the checksum after them. -/
theorem frameFields : Obligations.FrameFields := by
  intro c addr l q hl hq
  have hhead : (frameHead c addr l q).length = 8 + l := by rw [length_frameHead, hq]
  have htake : (frame c addr l q).take (8 + l) = frameHead c addr l q := List.take_left' hhead
  have hdrop : (frame c addr l q).drop (8 + l) = bytesLE (sum32 (frameHead c addr l q)).toNat 4 :=
    List.drop_left' hhead
  have haddr : ((frame c addr l q).drop 2).take 4 = bytesLE addr.toNat 4 := rfl
  have hlen : ((frame c addr l q).drop 6).take 2 = bytesLE l 2 := rfl
  have hpayload : ((frame c addr l q).drop 8).take l = q := List.take_left' hq
  refine ⟨by rw [length_frame, hq], rfl, rfl, ?_, ?_, hpayload, ?_, ?_⟩
  · rw [haddr, valueLE_bytesLE]
    exact Nat.mod_eq_of_lt addr.isLt
  · rw [hlen, valueLE_bytesLE]
    exact Nat.mod_eq_of_lt (by omega)
  · rw [hdrop, htake, valueLE_bytesLE, toNat_sum32_frameHead c addr hl hq]
    have hle := byteSum_frameHead_le c addr hl hq
    exact Nat.mod_eq_of_lt (by omega)
  · rw [htake]
    exact byteSum_frameHead_le c addr hl hq

/-! ## The frame as a list of bytes (R81) -/

/-- The four bytes of a number, little-endian (R12). -/
theorem bytesLE_four (v : Nat) : bytesLE v 4 =
    [BitVec.ofNat 8 v, BitVec.ofNat 8 (v / 256), BitVec.ofNat 8 (v / 65536), BitVec.ofNat 8 (v / 16777216)] := by
  simp [bytesLE, Nat.div_div_eq_div_mul]

/-- The four bytes of a word, little-endian, as its bits (R12). -/
theorem bytesLE_toNat_four (v : Word32) : bytesLE v.toNat 4 =
    [v.extractLsb' 0 8, v.extractLsb' 8 8, v.extractLsb' 16 8, v.extractLsb' 24 8] := by
  simp [bytesLE_four, BitVec.extractLsb', Nat.shiftRight_eq_div_pow]

/-- A payload shorter than the declared length is padded with zeros to it, any other is cut to it (R142). -/
theorem fitPayload_fst (p : List Byte) (l : Nat) :
    (fitPayload p l).1 = if p.length < l then p ++ List.replicate (l - p.length) 0 else p.take l := by
  unfold fitPayload
  split
  · rfl
  · split
    · rfl
    · exact (List.take_of_length_le (Nat.le_of_not_lt ‹_›)).symm

/-- The bytes before the checksum of the frame PKT_BUILD assembles, field by field (R81, R142, R143). -/
theorem frameHead_build (s : State) (b : Bank) (l : Nat) :
    frameHead b.commandByte b.addrLo l (fitPayload (s.memBytes b.srcAddr b.byteCount) l).1 =
      [0xA5#8, b.cmd.extractLsb' 0 8, b.addrLo.extractLsb' 0 8, b.addrLo.extractLsb' 8 8, b.addrLo.extractLsb' 16 8,
        b.addrLo.extractLsb' 24 8, BitVec.ofNat 8 l, BitVec.ofNat 8 (l / 256)] ++
      (if b.len.toNat < l then s.memBytes b.src.toNat b.len.toNat ++ List.replicate (l - b.len.toNat) 0#8
        else (s.memBytes b.src.toNat b.len.toNat).take l) := by
  have hcmd : b.commandByte = b.cmd.extractLsb' 0 8 := BitVec.setWidth_eq_extractLsb' (by decide)
  rw [frameHead, hcmd, bytesLE_toNat_four, fitPayload_fst, State.length_memBytes]
  rfl

/-- Settles O28: no error is met and the frame is valid, so `exec_pktBuild` says what is written; the frame's head is
the listed one, and its checksum the exact sum of the head. -/
theorem pktBuildWritesTheFrame : Obligations.PktBuildWritesTheFrame := by
  intro s b d hwf hb l payload head sum f hcmd hhi hl hsrc hdst
  have noError : buildError s.cfg b d = none := (buildError_none_iff s.cfg b d).mpr ⟨hcmd, hhi, hl, hsrc, hdst⟩
  have run := exec_pktBuild hb noError (validFrame_frame _ _ _ _)
  have hq : (buildPayload s b d).1.length = l := length_fitPayload _ _
  have hhead : frameHead b.commandByte b.addrLo l (buildPayload s b d).1 = head := frameHead_build s b l
  have hframe : buildFrame s b d = f :=
    calc frame b.commandByte b.addrLo l (buildPayload s b d).1
      _ = head ++ bytesLE sum 4 := by rw [frame_eq, toNat_sum32_frameHead _ _ hl hq, hhead]
      _ = f := by rw [bytesLE_four]
  have hsum : le32At (buildFrame s b d) (8 + l) = BitVec.ofNat 32 sum :=
    (le32At_frame b.commandByte b.addrLo hq).trans (congrArg sum32 hhead)
  have htrunc : (buildPayload s b d).2 = decide (l < b.len.toNat) := by
    rw [buildPayload, fitPayload_truncated, State.length_memBytes]; rfl
  refine ⟨_, run, ?_, fun a => ?_, rfl, exec_banksSameBut run⟩
  · rw [← htrunc, ← hsum]
    exact State.succeed_bank? hb rfl rfl
  · rw [State.succeed_eq, State.memByte_setBank, State.memByte_memWriteBytes s _ a _ hwf, length_buildFrame, hframe]
    rfl

end Sys2Proof.Machine
end

section
/-! PROOFS. The CRC transform (spec/40_crc.md): F is linear, the word split, and the laws of the folds. -/

namespace Sys2Proof.Machine

variable (m : Vector Row48 32)

/-! ## The step function (R100, R102, R105) -/

/-- F is linear in both arguments: each output bit is a parity of selected inputs, and parity is linear (R105). -/
theorem stepF_xor (s1 s2 : Word32) (w1 w2 : Word16) :
    stepF m (s1 ^^^ s2) (w1 ^^^ w2) = stepF m s1 w1 ^^^ stepF m s2 w2 := by
  refine word32_ext fun i hi => ?_
  rw [BitVec.getLsbD_xor, getLsbD_stepF m _ _ i hi, getLsbD_stepF m _ _ i hi, getLsbD_stepF m _ _ i hi, append_xor,
    and_xor_row, parity_xor]

/-- Linearity splits the input `{w, s}` into `{0, s}` and `{w, 0}` (R105). -/
theorem stepF_eq_contrib (s : Word32) (w : Word16) : stepF m s w = contribS m s ^^^ contribT m w := by
  calc stepF m s w
    _ = stepF m (s ^^^ 0) (0 ^^^ w) := congrArg₂ (stepF m) BitVec.xor_zero.symm BitVec.zero_xor.symm
    _ = contribS m s ^^^ contribT m w := stepF_xor m s 0 0 w

/-- Zero maps to zero: `F(0, 0)` is its own XOR with itself (R120). -/
theorem stepF_zero : stepF m 0 0 = 0 :=
  (stepF_xor m 0 0 0 0).trans BitVec.xor_self

/-- Settles O46: both halves come from `stepF_xor`. -/
theorem stepFunctionIsLinear : Obligations.StepFunctionIsLinear :=
  fun m s s1 s2 w w1 w2 => ⟨stepF_eq_contrib m s w, stepF_xor m s1 s2 w1 w2⟩

/-- Output bit i of F is 1 iff an odd number of the input bits row i selects are 1 (R10, R100). -/
theorem getLsbD_stepF_iff (s : Word32) (w : Word16) (i : Nat) (h : i < 32) :
    (stepF m s w).getLsbD i = true ↔
      ((List.range 48).filter (fun j => m[i].getLsbD j && (w ++ s).getLsbD j)).length % 2 = 1 := by
  simpa only [getLsbD_stepF m s w i h, BitVec.getLsbD_and] using parityCountsTheSetBits 48 (m[i] &&& (w ++ s))

/-! ## The word split (R103) -/

theorem le16_zero_right (b : Byte) : le16 b 0#8 = b.setWidth 16 := by
  simp [le16]

/-- Assembling a word is linear: each of its bits comes from one byte alone (R12). -/
theorem le16_xor (a0 a1 b0 b1 : Byte) : le16 (a0 ^^^ b0) (a1 ^^^ b1) = le16 a0 a1 ^^^ le16 b0 b1 := by
  ext i hi
  by_cases low : i < 8
  · simp [le16, low]
  · have high (x : Byte) : x.getLsbD i = false := x.getLsbD_of_ge i (Nat.le_of_not_lt low)
    simp [le16, low, high]

/-- Word k is bytes 2k and 2k+1, where a byte beyond the end reads as zero (R103). -/
theorem getElem?_dataWords {d : List Byte} {k : Nat} (h : 2 * k < d.length) :
    (dataWords d)[k]? = some (le16 (d.getD (2 * k) 0) (d.getD (2 * k + 1) 0)) := by
  induction d using dataWords.induct generalizing k with
  | case1 => cases h
  | case2 b =>
    obtain rfl : k = 0 := by simp only [List.length_singleton] at h; omega
    simp [dataWords, le16_zero_right]
  | case3 b0 b1 d ih =>
    cases k with
    | zero => simp [dataWords]
    | succ k =>
      have hk : 2 * k < d.length := by simp only [List.length_cons] at h; omega
      simpa [dataWords, Nat.mul_succ] using ih hk

/-- Settles O47: an odd last byte is the low byte of its word, with zero for the byte beyond the end. -/
theorem wordSplit : Obligations.WordSplit := by
  refine fun d => ⟨length_dataWords d, fun k hk => ?_, fun hodd => ?_⟩
  · rw [getElem?_dataWords (by omega), Option.map_some, toNat_le16]
    simp [valueLE]
  · have hlast : 2 * (d.length / 2) = d.length - 1 := by omega
    have hend : d.getD (d.length - 1 + 1) 0 = 0 := List.getD_eq_default _ _ (by omega)
    rw [getElem?_dataWords (by omega), Option.map_some, toNat_le16, hlast, hend]
    simp [valueLE]

theorem dataWords_append_zero {d : List Byte} (h : d.length % 2 = 1) : dataWords (d ++ [0]) = dataWords d := by
  induction d using dataWords.induct with
  | case1 => cases h
  | case2 b => simp [dataWords, le16_zero_right]
  | case3 b0 b1 d ih =>
    have hd : d.length % 2 = 1 := by simp only [List.length_cons] at h; omega
    simp only [List.cons_append, dataWords, ih hd]

/-- Settles O49: the two lists have the same words. -/
theorem oddByteFoldsAsZeroPadded : Obligations.OddByteFoldsAsZeroPadded := by
  intro m a d h
  rw [crcS, crcS, dataWords_append_zero h]

/-! ## The folds (R104, R106, R107, R120) -/

@[simp] theorem crcS_nil (a : Word32) : crcS m a [] = a := rfl

@[simp] theorem crcS_singleton (a : Word32) (b : Byte) : crcS m a [b] = stepF m a (b.setWidth 16) := rfl

@[simp] theorem crcS_cons_cons (a : Word32) (b0 b1 : Byte) (d : List Byte) :
    crcS m a (b0 :: b1 :: d) = crcS m (stepF m a (le16 b0 b1)) d := rfl

/-- An even first part can be folded first (R120). -/
theorem crcS_append (a : Word32) {d : List Byte} (e : List Byte) (h : d.length % 2 = 0) :
    crcS m a (d ++ e) = crcS m (crcS m a d) e := by
  rw [crcS, dataWords_append e h, List.foldl_append]
  rfl

/-- The fold is linear in the starting value and the data together, for lists of one length (R105, R120). -/
theorem crcS_xor (a b : Word32) {d e : List Byte} (h : d.length = e.length) :
    crcS m (a ^^^ b) (List.zipWith (fun x y => x ^^^ y) d e) = crcS m a d ^^^ crcS m b e := by
  induction d using dataWords.induct generalizing a b e with
  | case1 =>
    obtain rfl := List.eq_nil_of_length_eq_zero h.symm
    rfl
  | case2 x =>
    obtain ⟨y, rfl⟩ := List.length_eq_one_iff.mp h.symm
    simp only [List.zipWith_cons_cons, List.zipWith_nil_left, crcS_singleton, BitVec.setWidth_xor, stepF_xor]
  | case3 x0 x1 d ih =>
    obtain _ | ⟨y0, _ | ⟨y1, e⟩⟩ := e
    · cases h
    · cases h
    · have hde : d.length = e.length := by simpa using h
      simp only [List.zipWith_cons_cons, crcS_cons_cons, le16_xor, stepF_xor, ih _ _ hde]

/-- What the starting value adds does not depend on the data: xor away the fold of the same data (R120). -/
theorem crcS_xor_same_data (a b : Word32) (d : List Byte) :
    crcS m (a ^^^ b) d ^^^ crcS m b d = crcS m a (List.replicate d.length 0) := by
  have hd : List.zipWith (fun x y => x ^^^ y) d d = List.replicate d.length 0 := by
    simp only [List.zipWith_self, BitVec.xor_self, List.map_const']
    rfl
  rw [← crcS_xor m (a ^^^ b) b rfl, hd, BitVec.xor_assoc, BitVec.xor_self, BitVec.xor_zero]

variable {m} {table : List Word32}

/-- One step of the table form is F, where the entry it looks up is T of the word (R105, R107). -/
theorem stepFt_eq_stepF {s : Word32} {w : Word16} (h : table[w.toNat]? = some (contribT m w)) :
    stepFt m table s w = stepF m s w := by
  rw [stepFt, tableEntry_of_getElem? h, stepF_eq_contrib]

/-- Where the table is built, the table form is the bit-serial form (R107). -/
theorem crcT_eq_crcS (h : ∀ w : Word16, table[w.toNat]? = some (contribT m w)) (a : Word32) (d : List Byte) :
    crcT m table a d = crcS m a d := by
  have hF : stepFt m table = stepF m := funext fun s => funext fun w => stepFt_eq_stepF (h w)
  rw [crcT, crcS, hF]

/-- Settles O48: the last two differences are `crcS_xor`, with equal data and with equal starting values. -/
theorem foldLaws : Obligations.FoldLaws := by
  refine fun m => ⟨⟨stepF_zero m, stepF_zero m, stepF_zero m⟩, crcS_nil m, fun a d e h => crcS_append m a e h,
    crcS_xor_same_data m, fun a d e h => ?_, fun table a d h => crcT_eq_crcS h a d⟩
  rw [← crcS_xor m a a h, BitVec.xor_self]
  rfl

end Sys2Proof.Machine
end

section
/-! PROOFS. The CRC operations (spec/40_crc.md): what each writes, and the two forms compared. -/

namespace Sys2Proof.Machine

variable {s : State} {b c : Bank}

/-! ## The operations of the direct form (R113, R114, R116) -/

/-- A success with no table build leaves the registers it wrote, ERR and CAUSE cleared, and nothing else (R185). -/
theorem State.succeed_ends (hb : s.bank? s.issuer = some b) :
    (s.succeed c).bank? s.issuer = some (Bank.Reported c) ∧ OnlyBank s.issuer s (s.succeed c) :=
  ⟨State.succeed_bank? hb rfl rfl, s.setBank_onlyBank s.issuer c.ok⟩

/-- Settles O20: the registers are written with no look at the table. -/
theorem crcStartLoadsTheInitialValue : Obligations.CrcStartLoadsTheInitialValue :=
  fun _ _ hb => ⟨_, exec_crcStart hb, State.succeed_ends hb⟩

/-- Settles O21: the value written is F(ACC, IMM), whose bits `getLsbD_stepF_iff` counts. -/
theorem crcWordSFoldsTheImmediate : Obligations.CrcWordSFoldsTheImmediate :=
  fun s b w hb =>
    ⟨_, _, exec_crcWordS hb w, getLsbD_stepF_iff s.cfg.matrix b.acc w, State.succeed_ends hb⟩

/-- Settles O23: the value written is `crcS`, which is that fold. -/
theorem crcBufSFoldsTheBuffer : Obligations.CrcBufSFoldsTheBuffer :=
  fun _ _ hb hr => ⟨_, _, exec_crcBufS hb hr, rfl, State.succeed_ends hb⟩

/-! ## The operations of the table (R111, R115, R117, R118, R119) -/

/-- A success after `EnsureTable` leaves the table ensured, the registers it wrote, ERR and CAUSE cleared, and nothing
else changed (R111, R185). -/
theorem State.ensureTable_succeed_ends (hb : s.bank? s.issuer = some b) :
    TableEnsured s (s.ensureTable.succeed c) ∧
      (s.ensureTable.succeed c).bank? s.issuer = some (Bank.Reported c) ∧
      OnlyBankAndTable s.issuer s (s.ensureTable.succeed c) :=
  ⟨s.ensureTable_ensured, State.succeed_bank? hb s.ensureTable_banks s.ensureTable_issuer,
    s.ensureTable_succeed_only c⟩

/-- Settles O26: the bank is reported as it was found. -/
theorem tblInitEnsuresTheTable : Obligations.TblInitEnsuresTheTable :=
  fun _ _ hb => ⟨_, exec_tblInit hb, State.ensureTable_succeed_ends hb⟩

/-- Settles O22: the value written is `stepFt` of the ensured table. -/
theorem crcWordTFoldsTheTableEntry : Obligations.CrcWordTFoldsTheTableEntry :=
  fun _ _ w hb => ⟨_, exec_crcWordT hb w, State.ensureTable_succeed_ends hb⟩

/-- Settles O24: the value written is `crcT` of the ensured table, which is that fold. -/
theorem crcBufTFoldsTheBuffer : Obligations.CrcBufTFoldsTheBuffer := by
  intro s b hb hr
  obtain ⟨ensured, bank, only⟩ := State.ensureTable_succeed_ends hb
  exact ⟨_, _, exec_crcBufT hb hr, ensured, rfl, bank, only⟩

/-- From a good state `EnsureTable` leaves T(w) at every w, whether it builds the table or finds it (R33, R111). -/
theorem State.Inv.getElem?_ensureTable_dtab (h : s.Inv) (w : Word16) :
    s.ensureTable.dtab[w.toNat]? = some (contribT s.cfg.matrix w) := by
  rw [← s.ensureTable_cfg]
  exact h.ensureTable.table_built s.ensureTable_tvalid w

/-- Settles O27: the entry read is T(IMM). -/
theorem tblReadReturnsTheEntry : Obligations.TblReadReturnsTheEntry := by
  intro s b w hs hb
  refine ⟨_, exec_tblRead hb w, ?_⟩
  rw [tableEntry_of_getElem? (hs.getElem?_ensureTable_dtab w)]
  exact State.ensureTable_succeed_ends hb

/-! ## The two forms (R107) and the checksum (R108, R109) -/

/-- A success after `EnsureTable` differs from one without it in `g.TVALID` and the tables alone (R107, R111). -/
theorem State.ensureTable_succeed_eq (s : State) (c : Bank) :
    s.ensureTable.succeed c = { s.succeed c with tvalid := s.ensureTable.tvalid, dtab := s.ensureTable.dtab,
                                                 stateTables := s.ensureTable.stateTables } :=
  (congrArg (fun u : State => u.succeed c) s.ensureTable_only).trans rfl

/-- From a good state CRC_BUF_T folds as CRC_BUF_S does (R107, R117). -/
theorem exec_crcBufT_eq_direct (hs : s.Inv) (hb : s.bank? s.issuer = some b)
    (hr : b.src.toNat + b.len.toNat ≤ s.cfg.dmemSize) :
    exec .crcBufT s =
      .next (s.ensureTable.succeed { b with
        acc := crcS s.cfg.matrix b.acc (s.memBytes b.src.toNat b.len.toNat)
        result := crcS s.cfg.matrix b.acc (s.memBytes b.src.toNat b.len.toNat) }) := by
  rw [exec_crcBufT hb hr, crcT_eq_crcS hs.getElem?_ensureTable_dtab]

/-- From a good state CRC_WORD_T steps as CRC_WORD_S does (R107, R115). -/
theorem exec_crcWordT_eq_direct (hs : s.Inv) (hb : s.bank? s.issuer = some b) (w : Word16) :
    exec (.crcWordT w) s =
      .next (s.ensureTable.succeed { b with
        acc := stepF s.cfg.matrix b.acc w, result := stepF s.cfg.matrix b.acc w }) := by
  rw [exec_crcWordT hb w, stepFt_eq_stepF (hs.getElem?_ensureTable_dtab w)]

/-- Two operations that write the same registers, the second after `EnsureTable`, differ in the table alone. -/
theorem exec_forms_agree {i j : Instr} (hb : s.bank? s.issuer = some b) (hi : exec i s = .next (s.succeed c))
    (hj : exec j s = .next (s.ensureTable.succeed c)) :
    ∃ t u x, exec i s = .next t ∧ exec j s = .next u ∧ t.bank? s.issuer = some x ∧ u.bank? s.issuer = some x ∧
      u = { t with tvalid := u.tvalid, dtab := u.dtab, stateTables := u.stateTables } :=
  ⟨_, _, _, hi, hj, State.succeed_bank? hb rfl rfl,
    State.succeed_bank? hb s.ensureTable_banks s.ensureTable_issuer, s.ensureTable_succeed_eq c⟩

/-- Settles O38: a range error is the same in both forms, and otherwise both write the same registers. -/
theorem tableFormEqualsDirectForm : Obligations.TableFormEqualsDirectForm := by
  intro s b i j hs hb
  refine ⟨fun hv => crcT_eq_crcS (hs.table_built hv), ?_⟩
  rintro (⟨rfl, rfl⟩ | ⟨w, rfl, rfl⟩)
  · rcases Nat.lt_or_ge s.cfg.dmemSize (b.src.toNat + b.len.toNat) with hr | hr
    · exact ⟨_, _, _, exec_crcBufS_range hb hr, exec_crcBufT_range hb hr, State.raise_bank? hb, State.raise_bank? hb,
        rfl⟩
    · exact exec_forms_agree hb (exec_crcBufS hb hr) (exec_crcBufT_eq_direct hs hb hr)
  · exact exec_forms_agree hb (exec_crcWordS hb w) (exec_crcWordT_eq_direct hs hb w)

/-- From a good state both buffer operations leave `crcS` of the buffer in ACC and RESULT (R104, R107). -/
theorem exec_crcBuf_bank? {i : Instr} (hi : i ∈ [Instr.crcBufS, .crcBufT]) (hs : s.Inv)
    (hb : s.bank? s.issuer = some b) (hr : b.src.toNat + b.len.toNat ≤ s.cfg.dmemSize) :
    ∃ u, exec i s = .next u ∧ u.bank? s.issuer = some (Bank.Reported { b with
      acc := crcS s.cfg.matrix b.acc (s.memBytes b.src.toNat b.len.toNat)
      result := crcS s.cfg.matrix b.acc (s.memBytes b.src.toNat b.len.toNat) }) := by
  simp only [List.mem_cons, List.not_mem_nil, or_false] at hi
  rcases hi with rfl | rfl
  · exact ⟨_, exec_crcBufS hb hr, State.succeed_bank? hb rfl rfl⟩
  · exact ⟨_, exec_crcBufT_eq_direct hs hb hr,
      State.succeed_bank? hb s.ensureTable_banks s.ensureTable_issuer⟩

/-- Settles O50: CRC_START leaves a good state with `P_CRC_INIT` in ACC and the same buffer, which is then folded. -/
theorem startThenFoldIsTheChecksum : Obligations.StartThenFoldIsTheChecksum := by
  intro s b i hs hb hr hi
  have start := exec_crcStart hb
  have started := State.succeed_bank? (c := { b with acc := s.cfg.crcInit, result := s.cfg.crcInit }) hb rfl rfl
  obtain ⟨u, hu, folded⟩ := exec_crcBuf_bank? hi (exec_keeps_inv hs start) started hr
  exact ⟨_, u, _, start, hu, folded, rfl, rfl⟩

end Sys2Proof.Machine
end

section
/-! PROOFS. The packet operations (spec/41_packet.md): the fitted payload, the validity of a frame and what it does and
does not detect, PKT_VALIDATE, and SELF_CHECK. -/

namespace Sys2Proof.Machine

/-! ## The payload (R142) -/

theorem fitPayload_of_le {p : List Byte} {l : Nat} (h : p.length ≤ l) :
    fitPayload p l = (p ++ List.replicate (l - p.length) 0, false) := by
  unfold fitPayload
  rcases Nat.lt_or_eq_of_le h with hlt | rfl
  · rw [if_pos hlt]
  · simp

theorem fitPayload_of_lt {p : List Byte} {l : Nat} (h : l < p.length) : fitPayload p l = (p.take l, true) := by
  rw [fitPayload, if_neg (Nat.not_lt_of_gt h), if_pos h]

/-- Settles O54: the two cases of `fitPayload`, a payload of exactly the declared length being padded with nothing. -/
theorem payloadIsFitted : Obligations.PayloadIsFitted :=
  fun p l => ⟨fitPayload_of_le, fitPayload_of_lt, length_fitPayload p l⟩

/-! ## The byte sum and the value of a list with one byte changed (R12, R52) -/

/-- A changed byte changes the sum by the difference of the two bytes. -/
theorem byteSum_set {l : List Byte} {i : Nat} (h : i < l.length) (x : Byte) :
    byteSum (l.set i x) + l[i].toNat = byteSum l + x.toNat := by
  induction l generalizing i with
  | nil => exact absurd h (Nat.not_lt_zero i)
  | cons b l ih =>
    cases i with
    | zero => simp only [List.set_cons_zero, List.getElem_cons_zero, byteSum_cons]; omega
    | succ i =>
      have := ih (Nat.lt_of_succ_lt_succ h)
      simp only [List.set_cons_succ, List.getElem_cons_succ, byteSum_cons]
      omega

/-- Two changed bytes that cancel leave the sum as it was. -/
theorem byteSum_set_set {l : List Byte} {i j : Nat} {x y : Byte} (hi : i < l.length) (hj : j < l.length) (hij : i ≠ j)
    (hxy : x.toNat + y.toNat = l[i].toNat + l[j].toNat) : byteSum ((l.set i x).set j y) = byteSum l := by
  have hj' : j < (l.set i x).length := by rwa [List.length_set]
  have first := byteSum_set hi x
  have second := byteSum_set hj' y
  rw [List.getElem_set_ne hij hj'] at second
  omega

/-- Lists of one length with one little-endian value are the same list. -/
theorem eq_of_valueLE_eq {l m : List Byte} (hlen : l.length = m.length) (h : valueLE l = valueLE m) : l = m := by
  rw [← bytesLE_valueLE l, ← bytesLE_valueLE m, hlen, h]

/-! ## Which lists are valid, and what a valid list does and does not detect (R145, R149) -/

/-- A list is valid iff it has at least 4 bytes and its last four, little-endian, are the sum of the rest (R145). -/
theorem validFrame_iff (f : List Byte) :
    validFrame f = true ↔
      4 ≤ f.length ∧ valueLE (f.drop (f.length - 4)) = byteSum (f.take (f.length - 4)) % 2 ^ 32 := by
  by_cases h4 : 4 ≤ f.length
  · have last : (f.drop (f.length - 4)).length = 4 := by rw [List.length_drop]; omega
    have valid := validFrame_append (f.take (f.length - 4)) _ last
    rw [List.take_append_drop] at valid
    rw [valid, decide_eq_true_iff, and_iff_right h4]
  · simp [validFrame, h4]

/-- Every change of one byte of a valid list is detected: before the last four bytes it moves the sum by less than 256,
and among them it changes the stored value (R149 law 2). -/
theorem validFrame_set_of_valid {f : List Byte} {i : Nat} {x : Byte} (hf : validFrame f = true) (hi : i < f.length)
    (hx : f[i]? ≠ some x) : validFrame (f.set i x) = false := by
  obtain ⟨g, t, rfl, ht⟩ := eq_append_last_four ((validFrame_iff f).mp hf).1
  rw [validFrame_append g t ht, decide_eq_true_iff] at hf
  rcases Nat.lt_or_ge i g.length with hg | hg
  · rw [List.getElem?_append_left hg, List.getElem?_eq_getElem hg] at hx
    have changed : g[i].toNat ≠ x.toNat := fun e => hx (congrArg some (BitVec.eq_of_toNat_eq e))
    have sum := byteSum_set hg x
    have old := g[i].isLt
    have new := x.isLt
    rw [List.set_append_left _ _ hg, validFrame_append _ t ht, hf, decide_eq_false_iff_not]
    omega
  · rw [List.getElem?_append_right hg] at hx
    rw [List.length_append] at hi
    have hk : i - g.length < t.length := by omega
    have ht' : (t.set (i - g.length) x).length = t.length := List.length_set
    rw [List.set_append_right _ _ hg, validFrame_append g _ (ht'.trans ht), ← hf, decide_eq_false_iff_not]
    intro sameValue
    apply hx
    rw [← eq_of_valueLE_eq ht' sameValue, List.getElem?_set_self hk]

/-- Two changed bytes before the last four that cancel in the sum leave a list as valid as it was (R149). -/
theorem validFrame_set_set {g t : List Byte} {i j : Nat} {x y : Byte} (ht : t.length = 4) (hi : i < g.length)
    (hj : j < g.length) (hij : i ≠ j) (hxy : x.toNat + y.toNat = g[i].toNat + g[j].toNat) :
    validFrame (((g ++ t).set i x).set j y) = validFrame (g ++ t) := by
  have hj' : j < (g.set i x).length := by rwa [List.length_set]
  rw [List.set_append_left _ _ hi, List.set_append_left _ _ hj', validFrame_append _ t ht, validFrame_append g t ht,
    byteSum_set_set hi hj hij hxy]

/-- Settles O51: the last four bytes of a frame are built as the sum of the rest. -/
theorem builtFrameIsValid : Obligations.BuiltFrameIsValid :=
  fun c addr l q _ _ => validFrame_frame c addr l q

/-- Settles O52: a built frame is a valid list, and those detect every change of one byte. -/
theorem singleByteChangeIsDetected : Obligations.SingleByteChangeIsDetected :=
  fun c addr l q _ _ _ _ hi hx => validFrame_set_of_valid (validFrame_frame c addr l q) hi hx

/-- Settles O56: both bytes lie in the frame's head, whose sum is all the checksum sees of it. -/
theorem cancellingChangesAreNotDetected : Obligations.CancellingChangesAreNotDetected := by
  intro c addr l q i j x y _ hq hi hj hij hxy
  have head : (frameHead c addr l q).length = 8 + l := by rw [length_frameHead, hq]
  rw [← head] at hi hj
  have byteAt : ∀ {k : Nat} (hk : k < (frameHead c addr l q).length),
      (frame c addr l q).getD k 0 = (frameHead c addr l q)[k] := fun hk => by
    rw [frame_eq, List.getD_append _ _ _ _ hk, List.getD_eq_getElem _ _ hk]
  rw [byteAt hi, byteAt hj] at hxy
  rw [frame_eq, validFrame_set_set (length_bytesLE _ 4) hi hj hij hxy]
  exact validFrame_frame c addr l q

/-! ## PKT_VALIDATE (R148) -/

/-- Settles O30: RESULT is `validFrame` of the buffer, and an invalid buffer is a success like a valid one. -/
theorem pktValidateChecksTheSum : Obligations.PktValidateChecksTheSum := by
  intro s b hb hr n f
  refine ⟨_, exec_pktValidate hb hr, ?_⟩
  have valid := validFrame_iff f
  rw [State.length_memBytes] at valid
  simp only [← valid]
  exact State.succeed_ends hb

/-! ## SELF_CHECK (R146, R186) -/

/-- After any operation the issuing port's bank reports it with a code the CPE writes: the one error that is not
listed, SELF_CHECK, would need a built frame that is not valid. -/
theorem exec_leaves_good_bank {s t : State} {i : Instr} {c : Bank} (h : exec i s = .next t)
    (hc : t.bank? s.issuer = some c) : c.Good := by
  obtain ⟨b, hb, ⟨e, rfl, he⟩ | ⟨u, d, rfl, -, -, hu⟩⟩ := exec_cases h
  · cases (State.raise_bank? hb).symm.trans hc
    rcases he with he | ⟨d, -, invalid⟩
    · exact b.raise_good e he
    · exact absurd (validFrame_frame _ _ _ _) (Bool.eq_false_iff.mp invalid)
  · obtain ⟨hbanks, hissuer⟩ : u.banks = s.banks ∧ u.issuer = s.issuer := by
      rcases hu with rfl | rfl | ⟨d, -, -, rfl⟩
      · exact ⟨rfl, rfl⟩
      · exact ⟨s.ensureTable_banks, s.ensureTable_issuer⟩
      · exact ⟨rfl, rfl⟩
    cases (State.succeed_bank? hb hbanks hissuer).symm.trans hc
    exact d.ok_good

/-- None of the words CAUSE ever holds has the code of SELF_CHECK (R180). -/
theorem code_ne_selfCheck_of_reported : ∀ w ∈ reportedCauses, w.extractLsb' 0 8 ≠ OpError.selfCheck.code := by
  simp [reportedCauses, OpError.code]

/-- Settles O35: every operation leaves one of the reported words in CAUSE. -/
theorem selfCheckNeverOccurs : Obligations.SelfCheckNeverOccurs :=
  fun _ _ _ c h hc => code_ne_selfCheck_of_reported c.cause (exec_leaves_good_bank h hc).cause_reported

end Sys2Proof.Machine
end

section
/-! PROOFS. Errors and ports (spec/60_exceptions.md): which error an operation meets, how it is reported, and that no
port's bank is another's. -/

namespace Sys2Proof.Machine

variable {s t u : State} {p q : Nat} {b c : Bank} {i : Instr} {e : OpError} {v : Word32}

/-! ## The error an operation meets (R180, R182, R183, R187) -/

/-- The error operation `i` meets with operand registers `b`, if any (R56, R183, R187). -/
def operationError (cfg : Config) (b : Bank) : Instr → Option OpError
  | .crcStart | .crcWordS _ | .crcWordT _ | .tblInit | .tblRead _ => none
  | .crcBufS | .crcBufT | .pktValidate =>
    if cfg.dmemSize < b.src.toNat + b.len.toNat then some (.memRange .read) else none
  | .pktBuild d => buildError cfg b d

/-- The checks of PKT_BUILD in their order (R187), each as a fact about the registers. -/
theorem buildError_eq (cfg : Config) (b : Bank) (d : Bool) :
    buildError cfg b d =
      if 0xFF < b.cmd.toNat then some (.fieldOverflow .command)
      else if b.addrHi ≠ 0 then some (.fieldOverflow .address)
      else if 0xFFFF < b.declaredLength d then some (.fieldOverflow .declaredLength)
      else if cfg.dmemSize < b.src.toNat + b.len.toNat then some (.memRange .read)
      else if cfg.dmemSize < b.dst.toNat + (12 + b.declaredLength d) then some (.memRange .write)
      else none := by
  have command : (!b.commandFits) = true ↔ 0xFF < b.cmd.toNat := by
    rw [Bool.not_eq_true', ← Bool.not_eq_true, b.commandFits_iff, Nat.not_le]
  have address : (!b.addressFits) = true ↔ b.addrHi ≠ 0 := by
    rw [Bool.not_eq_true', ← Bool.not_eq_true, b.addressFits_iff]
  simp only [buildError, command, address, pastDmem_iff]
  rfl

/-- Settles O29: in each case the checks before it pass, and it is the first that does not. -/
theorem pktBuildReportsTheFirstError : Obligations.PktBuildReportsTheFirstError := by
  intro s b d hb l
  have reported : ∀ e, buildError s.cfg b d = some e → ReportsOnly (.pktBuild d) s b e.causeWord :=
    fun _ he => .of_raise hb (exec_pktBuild_error hb he)
  have checks := buildError_eq s.cfg b d
  have hdecl : b.declaredLength d = l := rfl
  rw [hdecl] at checks
  refine ⟨fun hcmd => reported (.fieldOverflow .command) ?_,
    fun hcmd hhi => reported (.fieldOverflow .address) ?_,
    fun hcmd hhi hl => reported (.fieldOverflow .declaredLength) ?_,
    fun hcmd hhi hl hsrc => reported (.memRange .read) ?_,
    fun hcmd hhi hl hsrc hdst => reported (.memRange .write) ?_⟩
  · rw [checks, if_pos hcmd]
  · rw [checks, if_neg hcmd.not_gt, if_pos hhi]
  · rw [checks, if_neg hcmd.not_gt, if_neg (not_not.mpr hhi), if_pos hl]
  · rw [checks, if_neg hcmd.not_gt, if_neg (not_not.mpr hhi), if_neg hl.not_gt, if_pos hsrc]
  · rw [checks, if_neg hcmd.not_gt, if_neg (not_not.mpr hhi), if_neg hl.not_gt, if_neg hsrc.not_gt, if_pos hdst]

/-! ## How an operation ends (R180, R184, R185) -/

/-- An operation that meets an error raises it. -/
theorem exec_of_operationError (hb : s.bank? s.issuer = some b) (he : operationError s.cfg b i = some e) :
    exec i s = .next (s.raise b e) := by
  cases i with
  | crcStart | crcWordS _ | crcWordT _ | tblInit | tblRead _ => cases he
  | crcBufS => obtain ⟨hr, ⟨⟩⟩ := Option.ite_none_right_eq_some.mp he; exact exec_crcBufS_range hb hr
  | crcBufT => obtain ⟨hr, ⟨⟩⟩ := Option.ite_none_right_eq_some.mp he; exact exec_crcBufT_range hb hr
  | pktBuild d => exact exec_pktBuild_error hb he
  | pktValidate => obtain ⟨hr, ⟨⟩⟩ := Option.ite_none_right_eq_some.mp he; exact exec_pktValidate_range hb hr

/-- An operation that meets none succeeds, the table or DMEM written before any register: a frame that is built passes
its self-check (R146). -/
theorem exec_of_no_operationError (hb : s.bank? s.issuer = some b) (he : operationError s.cfg b i = none) :
    ∃ (u : State) (c : Bank), exec i s = .next (u.succeed c) ∧ u.banks = s.banks ∧ u.issuer = s.issuer := by
  have range : (if s.cfg.dmemSize < b.src.toNat + b.len.toNat then some (OpError.memRange .read) else none) = none →
      b.src.toNat + b.len.toNat ≤ s.cfg.dmemSize := by simp
  cases i with
  | crcStart => exact ⟨_, _, exec_crcStart hb, rfl, rfl⟩
  | crcWordS w => exact ⟨_, _, exec_crcWordS hb w, rfl, rfl⟩
  | crcWordT w => exact ⟨_, _, exec_crcWordT hb w, s.ensureTable_banks, s.ensureTable_issuer⟩
  | crcBufS => exact ⟨_, _, exec_crcBufS hb (range he), rfl, rfl⟩
  | crcBufT => exact ⟨_, _, exec_crcBufT hb (range he), s.ensureTable_banks, s.ensureTable_issuer⟩
  | tblInit => exact ⟨_, _, exec_tblInit hb, s.ensureTable_banks, s.ensureTable_issuer⟩
  | tblRead w => exact ⟨_, _, exec_tblRead hb w, s.ensureTable_banks, s.ensureTable_issuer⟩
  | pktBuild d => exact ⟨_, _, exec_pktBuild hb he (validFrame_frame _ _ _ _), rfl, rfl⟩
  | pktValidate => exact ⟨_, _, exec_pktValidate hb (range he), rfl, rfl⟩

/-- How an operation ends: with the error it meets and nothing else done, or with a success in the issuing port's
bank. -/
theorem exec_ends (h : exec i s = .next t) (hb : s.bank? s.issuer = some b) :
    (∃ e, operationError s.cfg b i = some e ∧ t = s.raise b e) ∨ ∃ c : Bank, t.bank? s.issuer = some c.ok := by
  cases he : operationError s.cfg b i with
  | some e =>
    cases (exec_of_operationError hb he).symm.trans h
    exact .inl ⟨e, rfl, rfl⟩
  | none =>
    obtain ⟨u, c, hrun, hbanks, hissuer⟩ := exec_of_no_operationError hb he
    cases hrun.symm.trans h
    exact .inr ⟨c, State.succeed_bank? hb hbanks hissuer⟩

/-- The words of the errors an operation meets: FIELD_OVERFLOW and MEM_RANGE with their details (R180). -/
theorem causeWord_of_operationError {cfg : Config} (he : operationError cfg b i = some e) :
    e.causeWord ∈ [0x102#32, 0x202#32, 0x302#32, 0x103#32, 0x203#32] := by
  have met : (∃ f, e = .fieldOverflow f) ∨ ∃ r, e = .memRange r := by
    cases i with
    | crcStart | crcWordS _ | crcWordT _ | tblInit | tblRead _ => cases he
    | crcBufS | crcBufT | pktValidate =>
      obtain ⟨-, ⟨⟩⟩ := Option.ite_none_right_eq_some.mp he
      exact .inr ⟨_, rfl⟩
    | pktBuild d =>
      rw [operationError, buildError_eq] at he
      split_ifs at he <;> cases he <;> simp
  obtain ⟨f, rfl⟩ | ⟨r, rfl⟩ := met
  · cases f <;> decide
  · cases r <;> decide

/-- Settles O33: a success clears ERR, so the operation raised the error it met. -/
theorem errorsArePrecise : Obligations.ErrorsArePrecise := by
  intro i s t b c h hb hc herr
  rcases exec_ends h hb with ⟨e, -, rfl⟩ | ⟨d, hd⟩
  · cases (State.raise_bank? hb).symm.trans hc
    exact ⟨rfl, s.setBank_onlyBank s.issuer _⟩
  · cases hd.symm.trans hc
    cases herr

/-- Settles O34: CAUSE is NONE after a success, and else the word of the error the operation met. -/
theorem errAndCauseReportTheOperation : Obligations.ErrAndCauseReportTheOperation := by
  intro i s t c h hc
  obtain ⟨b, hb, -⟩ := exec_cases h
  refine ⟨?_, (exec_leaves_good_bank h hc).err_iff_cause⟩
  rcases exec_ends h hb with ⟨e, he, rfl⟩ | ⟨d, hd⟩
  · cases (State.raise_bank? hb).symm.trans hc
    exact List.mem_cons_of_mem _ (causeWord_of_operationError he)
  · cases hd.symm.trans hc
    exact List.mem_cons_self

/-! ## No bank is another port's (R194, R216) -/

theorem BanksSameBut.trans (hst : BanksSameBut p s t) (htu : BanksSameBut p t u) : BanksSameBut p s u := by
  obtain ⟨hlen, hbanks⟩ := hst
  obtain ⟨hlen', hbanks'⟩ := htu
  exact ⟨hlen'.trans hlen, fun q hq => (hbanks' q hq).trans (hbanks q hq)⟩

theorem State.issue_sameBut (s : State) (p : Nat) (b : Bank) (v : Word32) : BanksSameBut p s (s.issue p b v) :=
  ⟨List.length_set, fun _ hq => s.issue_bank?_ne b v hq⟩

/-- Running a word, an operation's or not, changes no bank but the issuing port's. -/
theorem State.runWord_sameBut (h : s.runWord v = .next t) : BanksSameBut s.issuer s t := by
  obtain ⟨i, -, he⟩ | ⟨-, c, -, rfl⟩ := State.runWord_cases h
  · exact exec_banksSameBut he
  · exact s.setBank_sameBut s.issuer _

/-- An event changes no bank, or it is a register write and changes at most the bank it writes in. -/
theorem State.serve_banks {k : Nat} {r : Request} (h : s.serve k r = .next t) :
    t.banks = s.banks ∨ ∃ q reg v, r = .regWrite (regOffset q reg) 4 v ∧ BanksSameBut q s t := by
  obtain rfl | ⟨w, rfl⟩ | ⟨q, b, reg, v, hr, -, -, -, rfl⟩ | ⟨q, b, v, hr, -, -, hw⟩ | ⟨addr, width, v, -, -, -, rfl⟩ :=
    State.serve_cases h
  · exact .inl rfl
  · exact .inl rfl
  · exact .inr ⟨q, reg, v, hr, s.setBank_sameBut q _⟩
  · exact .inr ⟨q, .op, v, hr, (s.issue_sameBut q b v).trans (State.runWord_sameBut hw)⟩
  · exact .inl rfl

/-- Settles O40: of the turns that are no reset, only a register write changes a bank, and it is the bank its offset
names. -/
theorem banksArePrivate : Obligations.BanksArePrivate := by
  intro s t p h hne
  obtain rfl | ⟨rest, ha, -⟩ | ⟨k, r, rest, qs, hr, hs⟩ := step_next_cases h
  · exact absurd rfl hne
  · exact .inl ⟨rest, ha⟩
  · rcases State.serve_banks hs with hbanks | ⟨q, reg, v, rfl, -, hothers⟩
    · exact absurd (congrArg (fun l : List Bank => l[p]?) hbanks) hne
    · obtain rfl : p = q := by_contra fun hpq => hne (hothers p hpq)
      exact .inr ⟨k, regOffset p reg, v, hr, portOf_regOffset p reg⟩

/-- What an operation does to the shared state does not look at the banks. -/
theorem Prepares.setBank {f : State → State} (h : Prepares i f) (s : State) (p : Nat) (c : Bank) :
    f (s.setBank p c) = (f s).setBank p c := by
  obtain rfl | rfl | ⟨d, a, l, -, rfl⟩ := h
  · rfl
  · exact s.ensureTable_setBank p c
  · rfl

/-- Settles O41: the other bank is no operand of the operation, and its replacement commutes with what the operation
does. -/
theorem operationsIgnoreOtherBanks : Obligations.OperationsIgnoreOtherBanks := by
  intro i s t p c hp h
  obtain ⟨b, hb, -⟩ := exec_cases h
  obtain ⟨f, b', hf, run⟩ := exec_determined s b i
  cases (run s (.refl s) hb).symm.trans h
  have same : SameShared s (s.setBank p c) := TouchesTableOnly.sameShared (.inl rfl) s p c
  calc exec i (s.setBank p c)
    _ = .next ((f (s.setBank p c)).setBank s.issuer b') := run _ same ((s.bank?_setBank_ne c hp.symm).trans hb)
    _ = .next (((f s).setBank s.issuer b').setBank p c) := by rw [hf.setBank, State.setBank_comm _ _ _ hp]

/-! ## ILLEGAL_OP (R23, R76, R181) -/

/-- The words R76 lists decode to no operation (R77). -/
theorem decode_of_illegalFields (h : IllegalFields v) : decode v = .illegalOp :=
  ((legalWordMatchesExactlyOneRow v).1 h).2

/-- Settles O5: the word is stored with the port made the issuing one, and ILLEGAL_OP is raised in its bank. -/
theorem illegalWordIsReported : Obligations.IllegalWordIsReported := by
  intro s k p b v hp hv
  obtain ⟨hlt, hb⟩ := hp
  have issued : (s.issue p b v).bank? p = some (b.hostWrite .op v) := s.issue_bank? p b v (State.bank?_lt hb)
  have run : s.serve k (.regWrite (regOffset p .op) 4 v) =
      .next ((s.issue p b v).raise (b.hostWrite .op v) .illegalOp) :=
    (State.regWrite_op v hlt hb).trans (State.runWord_illegal (decode_of_illegalFields hv) issued)
  exact ⟨_, run, State.raise_bank? issued, rfl, (s.issue_sameBut p b v).trans ((s.issue p b v).setBank_sameBut p _)⟩

end Sys2Proof.Machine
end

section
/-! PROOFS. Reset and hazards (spec/70_reset_and_hazards.md): an operation cannot hang. -/

namespace Sys2Proof.Machine

/-- Settles O31: an operation faults only for want of the issuing bank, and the port has one. -/
theorem everyOperationCompletes : Obligations.EveryOperationCompletes :=
  fun i _ _ hb => exec_completes i hb

end Sys2Proof.Machine
end
